-- ==== Sys2Proof/Word.lean ====
section
/-! DEFINITION. The machine's words: a bit, a bit string in stream order, and the bytes a program image is packed in.
The core itself has no bytes (spec/20_memory.md R53): `Byte` is used only by the image loader and the packer. -/

namespace Sys2Proof

/-- A bit is `0` or `1` (spec/00_scope.md R7). `false` is 0 and `true` is 1. -/
abbrev Bit := Bool

/-- A bit string in stream order (R7): the head of the list stands at the lowest memory address, is the first bit the
machine reads, and is the most significant bit of the number the string stands for. -/
abbrev BitString := List Bit

/-- One byte of a program image (spec/20_memory.md R54). -/
abbrev Byte := BitVec 8

end Sys2Proof
end

