-- ==== Sys2Proof/Config.lean ====
section
/-! DEFINITION. The parameters that fix one machine `jaw(r, m)` (spec/00_scope.md R1, R4, R5), the sizes derived from
them, and the addresses the instruction set fixes (spec/20_memory.md R62). The model is written once for every `(r, m)`;
`Params.reference` is the configuration the spec's patterns, opcode table and scenarios are given for. -/

namespace Sys2Proof

/-- `ArchParams` (R4) and the output buffer width (R5). They are fixed for the life of a machine
(spec/10_state.md R33). -/
structure Params where
  /-- Register index width: there are `2^r` registers. -/
  r : Nat
  /-- Register width exponent: a register, an address and the program counter are `2^m` bits wide. -/
  m : Nat
  /-- `OUT_WIDTH`: bits per output code point. -/
  outWidth : Nat
deriving DecidableEq, Repr

namespace Params

/-- `W = 2^m`: the width of a register, of an address and of the program counter (R4). -/
def width (P : Params) : Nat := 2 ^ P.m

/-- `NREG = 2^r`: how many registers there are (R4). -/
def regCount (P : Params) : Nat := 2 ^ P.r

/-- `MEMSIZE = 2^W`: how many one-bit memory cells there are (R4). -/
def memSize (P : Params) : Nat := 2 ^ P.width

/-- The configurations the spec admits: `r ≥ 1` and `m ≥ 1` with no upper bound (R4), and `OUT_WIDTH` 8 or 16 (R5). -/
abbrev legal (P : Params) : Prop := 1 ≤ P.r ∧ 1 ≤ P.m ∧ (P.outWidth = 8 ∨ P.outWidth = 16)

/-- The reference configuration `(r = 3, m = 4)` of spec/30_encoding.md R79 and of spec/opcode_table.json, with the
default `OUT_WIDTH = 8` (R5). -/
def reference : Params := { r := 3, m := 4, outWidth := 8 }

end Params

/-- The integer literal a captured text denotes, if it denotes one, "any base the literal implies" (spec/30_encoding.md R88).
The source does not give the literal syntax (spec/91_not_in_source.md N13), so this is a free value of the model
(assumption log 19): nothing can be proved of it. Only the assembler's placeholders use it, never the machine. -/
opaque Config.intLiteral : List Char → Option Int

/-- Address of the halt cell HALT (spec/60_exceptions.md R169). -/
def haltCell : Nat := 0

/-- Address of the output bit cell OUTBIT (R169). -/
def outBitCell : Nat := 1

/-- Address of the output trigger cell OUTTRIG (R169). -/
def outTrigCell : Nat := 2

/-- The load address of the image and the reset value of the program counter
(spec/70_reset_and_hazards.md R191). -/
def loadAddr : Nat := 3

end Sys2Proof
end

