-- ==== Sys2Proof/Syntax.lean ====
section
/-! DEFINITION. The four instructions (spec/00_scope.md R9, spec/30_encoding.md R71), one constructor per row of
spec/opcode_table.json. Register and bit indices are naturals; `WellFormed.lean` says which of them a field can hold. -/

namespace Sys2Proof

/-- A machine instruction. -/
inductive Instr where
  /-- `MEMSET`, template `mem[reg[n]] = b` (opcode `00`, R72). -/
  | memset (n : Nat) (b : Bit)
  /-- `MEMJMP`, template `mem[reg[n]] ? pp += reg[k]` (opcode `01`, R73). -/
  | memjmp (n k : Nat)
  /-- `REGSET`, template `reg[n][i] = b` (opcode `10`, R74). -/
  | regset (n i : Nat) (b : Bit)
  /-- `REGJMP`, template `reg[n][i] ? pp += reg[k]` (opcode `11`, R75). -/
  | regjmp (n i k : Nat)
deriving DecidableEq, Repr

end Sys2Proof
end

