-- ==== Sys2Proof/WellFormed.lean ====
section
/-! DEFINITION. The operands an encoder receives, the fields of each format (spec/30_encoding.md R72 to R75), and which
instructions have an encoding: those whose every numeric field fits its declared bit width (R76, R82). -/

namespace Sys2Proof

/-- One field of an encoding: the number an encoder is given for it, which may be any integer, and the bit width the format
gives it. -/
structure Field where
  value : Int
  width : Nat
deriving DecidableEq, Repr

/-- The value fits the width: it is in `[0, 2^width)` (R82: a value that does not fit is a hard encoding error). -/
abbrev Field.fits (f : Field) : Prop := 0 ≤ f.value ∧ f.value < (2 ^ f.width : Nat)

/-- The four machine templates of R71 and R85 over operands of type `α`. With `α = Int` this is what an encoder receives: no
operand is known to fit before it is checked, not even the bit `b`. -/
inductive Template (α : Type) where
  /-- `mem[reg[n]] = b`. -/
  | memset (n b : α)
  /-- `mem[reg[n]] ? pp += reg[k]`. -/
  | memjmp (n k : α)
  /-- `reg[n][i] = b`. -/
  | regset (n i b : α)
  /-- `reg[n][i] ? pp += reg[k]`. -/
  | regjmp (n i k : α)
deriving DecidableEq, Repr

/-- The same template over other operands. -/
def Template.map {α β : Type} (f : α → β) : Template α → Template β
  | .memset n b => .memset (f n) (f b)
  | .memjmp n k => .memjmp (f n) (f k)
  | .regset n i b => .regset (f n) (f i) (f b)
  | .regjmp n i k => .regjmp (f n) (f i) (f k)

/-- The fields after the two opcode bits, in stream order (R72 to R75). -/
def Template.fields (P : Params) : Template Int → List Field
  | .memset n b => [⟨n, P.r⟩, ⟨b, 1⟩]
  | .memjmp n k => [⟨n, P.r⟩, ⟨k, P.r⟩]
  | .regset n i b => [⟨n, P.r⟩, ⟨i, P.m⟩, ⟨b, 1⟩]
  | .regjmp n i k => [⟨n, P.r⟩, ⟨i, P.m⟩, ⟨k, P.r⟩]

/-- The instruction whose operands have been checked to fit; it means nothing for operands that do not. -/
def Template.instr : Template Int → Instr
  | .memset n b => .memset n.toNat (b == 1)
  | .memjmp n k => .memjmp n.toNat k.toNat
  | .regset n i b => .regset n.toNat i.toNat (b == 1)
  | .regjmp n i k => .regjmp n.toNat i.toNat k.toNat

/-- An instruction's operands as numbers; the bit `b` is 0 or 1. -/
def Instr.template : Instr → Template Int
  | .memset n b => .memset n b.toNat
  | .memjmp n k => .memjmp n k
  | .regset n i b => .regset n i b.toNat
  | .regjmp n i k => .regjmp n i k

/-- The fields of an instruction. -/
def Instr.fields (P : Params) (i : Instr) : List Field := i.template.fields P

/-- Every field of the instruction fits its declared bit width: `n, k` in `[0, 2^r)`, `i` in `[0, 2^m)` (R82). -/
abbrev Instr.wf (P : Params) (i : Instr) : Prop := ∀ f ∈ i.fields P, f.fits

end Sys2Proof
end

