-- ==== Sys2Proof/Decode.lean ====
section
/-! DEFINITION. Bit-to-number conversions (spec/00_scope.md R7), the decoder (spec/30_encoding.md R70 to R80,
spec/40_execution_loop.md R102), the encoder (R71 to R76, R82), and `decodeTableWord`, the decoder read through the
numbering of spec/opcode_table.json. -/

namespace Sys2Proof

/-- `uint(b_0 … b_{w-1}) = Σ_j b_j · 2^(w-1-j)`: the first bit is the most significant (R7). -/
def uint : BitString → Nat
  | [] => 0
  | b :: bs => b.toNat * 2 ^ bs.length + uint bs

/-- `bits_w(v)`: the `w`-bit string of `v`, most significant bit first (R7). -/
def bitsOf : Nat → Nat → BitString
  | 0, _ => []
  | w + 1, v => v.testBit w :: bitsOf w v

/-! ## Decoding

The decoder reads bits through a source `rd`: `rd j` is the bit at offset `j` from the instruction's first bit, or the
reason why it cannot be read. The machine's fetch passes memory reads at `pc + j` (R102); `decode` passes a bit string.
So there is one decoder. -/

/-- The `w` bits at offsets `off`, `off + 1`, … in ascending order (R70). -/
def readBits {ε : Type} (rd : Nat → Except ε Bit) (off : Nat) : Nat → Except ε BitString
  | 0 => .ok []
  | w + 1 => do
    let b ← rd off
    let bs ← readBits rd (off + 1) w
    .ok (b :: bs)

/-- `Fetch(p + off, w)`: a field is an unsigned integer, most significant bit at the lowest address (R8, R76). -/
def readField {ε : Type} (rd : Nat → Except ε Bit) (off w : Nat) : Except ε Nat := do
  let bs ← readBits rd off w
  .ok (uint bs)

/-- Fetch and decode, common to all four instructions (R102): the first bit is the domain (0 memory, 1 register), the
second the operation (0 write, 1 conditional jump), then `n`, then the fields the pair selects. -/
def decodeFrom {ε : Type} (P : Params) (rd : Nat → Except ε Bit) : Except ε Instr := do
  let d ← rd 0
  let o ← rd 1
  let n ← readField rd 2 P.r
  match d, o with
  | false, false => do
    let b ← rd (2 + P.r)
    .ok (.memset n b)
  | false, true => do
    let k ← readField rd (2 + P.r) P.r
    .ok (.memjmp n k)
  | true, false => do
    let i ← readField rd (2 + P.r) P.m
    let b ← rd (2 + P.r + P.m)
    .ok (.regset n i b)
  | true, true => do
    let i ← readField rd (2 + P.r) P.m
    let k ← readField rd (2 + P.r + P.m) P.r
    .ok (.regjmp n i k)

/-- The length of an instruction in bits (R72 to R75, R77); it depends on the opcode and on `r` and `m` only. -/
def Instr.length (P : Params) : Instr → Nat
  | .memset _ _ => 3 + P.r
  | .memjmp _ _ => 2 + 2 * P.r
  | .regset _ _ _ => 3 + P.r + P.m
  | .regjmp _ _ _ => 2 + 2 * P.r + P.m

/-- The length of a template's encoding, which no operand influences (R72 to R75, R77). -/
def Template.length {α : Type} (P : Params) (t : Template α) : Nat := (t.map fun _ => (0 : Int)).instr.length P

/-- The length of the longest of the four formats: `REGSET`'s or `REGJMP`'s. -/
def Params.maxLength (P : Params) : Nat := max (3 + P.r + P.m) (2 + 2 * P.r + P.m)

/-- Why a bit string does not decode. No encoding is illegal or reserved (R78, R80), so the only reason is that the
string ends inside an instruction. -/
inductive DecodeError where
  /-- The bit string has no bit at this offset. Raised by `decode` on a bit string held outside memory; a fetch never
  meets it, since addresses wrap. Safe: no instruction is made up. -/
  | endOfBits (offset : Nat)
deriving DecidableEq, Repr

/-- The bit at offset `j` of a bit string. -/
def bitAt (bits : BitString) (j : Nat) : Except DecodeError Bit :=
  match bits[j]? with
  | some b => .ok b
  | none => .error (.endOfBits j)

/-- Decode the first instruction of a bit string; the answer carries the bits after it (R70: there is no padding
between instructions). -/
def decode (P : Params) (bits : BitString) : Except DecodeError (Instr × BitString) := do
  let i ← decodeFrom P (bitAt bits)
  .ok (i, bits.drop (i.length P))

/-! ## Encoding -/

/-- The two opcode bits: domain, then operation (R71). -/
def Instr.opcode : Instr → BitString
  | .memset _ _ => [false, false]
  | .memjmp _ _ => [false, true]
  | .regset _ _ _ => [true, false]
  | .regjmp _ _ _ => [true, true]

/-- The encoding of R71: the opcode, then every field in the format's order (R72 to R75), each most significant bit first
(R76). It is meant for a well-formed instruction; `encodeChecked` is the encoder that validates. -/
def encode (P : Params) (i : Instr) : BitString :=
  match i with
  | .memset n b => i.opcode ++ (bitsOf P.r n ++ [b])
  | .memjmp n k => i.opcode ++ (bitsOf P.r n ++ bitsOf P.r k)
  | .regset n ix b => i.opcode ++ (bitsOf P.r n ++ (bitsOf P.m ix ++ [b]))
  | .regjmp n ix k => i.opcode ++ (bitsOf P.r n ++ (bitsOf P.m ix ++ bitsOf P.r k))

/-- The assembler's errors (spec/30_encoding.md R82, R88, R90). They are no machine event (spec/60_exceptions.md R173). The line
an error stands on is named by `AsmFailure` (Machine/Labels.lean), which carries one of these. -/
inductive AsmError where
  /-- `ValueOutOfRange`: a numeric field does not fit its declared bit width; it names the offending value and width.
  Raised by the encoders. Safe: nothing is emitted. -/
  | valueOutOfRange (value : Int) (width : Nat)
  /-- `InvalidOperand`: a placeholder's captured text matches none of its declared kinds, or a label token is malformed; it
  names the token. Raised by `recognise` and `labelToken`. Safe: the line is not encoded. -/
  | invalidOperand (token : List Char)
  /-- `NoMatchingPattern`: a source line matches no registered template. Raised by `recogniseLine` for a line the registry,
  which is out of scope (spec/00_scope.md R3), found no pattern for. Safe: the line is not encoded. -/
  | noMatchingPattern
  /-- `UnresolvedLabelReference`: fewer resolved offsets than referenced labels. Raised by `takeOperands`. Safe: the line is
  not encoded. -/
  | unresolvedLabelReference
  /-- The contract violation of R90: a referenced-label slot remains unconsumed. Raised by `fillLine`. Safe: the line is
  not encoded. -/
  | unconsumedOffsets
  /-- What the placeholders passed is not one number for each parameter of the encoder. Raised by `FilledPart.pieces`.
  The spec names no such error: it takes a registered pattern that does not fit its own encoder (DESIGN CHOICE, assumption log
  19). Safe: the line is not encoded. -/
  | operandMismatch
deriving DecidableEq, Repr

/-- A value checked against a width (R82). -/
def checkField (f : Field) : Except AsmError Unit :=
  if f.fits then .ok () else .error (.valueOutOfRange f.value f.width)

/-- Every field must fit (R82). Which of several fields that do not fit the error names, the spec does not say: the first in the
list's order is a DESIGN CHOICE (assumption log 24). -/
def checkFields : List Field → Except AsmError Unit
  | [] => .ok ()
  | f :: fs => do
    checkField f
    checkFields fs

/-- The validating encoder (R82), on operands that may be any integers: `n, k` must be in `[0, 2^r)`, `i` in `[0, 2^m)`, `b` in
`{0, 1}`, and a value that does not fit is never silently truncated. Of several that do not fit the error names the first in the
format's field order (DESIGN CHOICE, assumption log 24). -/
def encodeChecked (P : Params) (t : Template Int) : Except AsmError BitString := do
  checkFields (t.fields P)
  .ok (encode P t.instr)

/-! ## The opcode table's numbering

spec/opcode_table.json numbers an instruction of `(r = 3, m = 4)` as ONE unsigned number whose first stream bit is most
significant, over exactly the format's length (6, 8, 10, 12 bits), so the opcode is the number's top two bits. A number
`w` given with its width rounded up to whole bytes is therefore laid out over the length of the one row whose opcode
bits it carries on top; the four rows' ranges of numbers do not meet. -/

/-- One row of the table: the format's length at `(r = 3, m = 4)` and its opcode as a two-bit number. -/
structure TableRow where
  length : Nat
  opcode : Nat
deriving DecidableEq, Repr

/-- The four rows of spec/opcode_table.json in the table's order (R79). -/
def tableRows : List TableRow := [⟨6, 0⟩, ⟨8, 1⟩, ⟨10, 2⟩, ⟨12, 3⟩]

/-- The row's opcode bits are the top two of the `length` bits of `w`, and nothing stands above them. -/
def TableRow.covers (row : TableRow) (nbits w : Nat) : Bool :=
  row.length ≤ nbits && w / 2 ^ (row.length - 2) == row.opcode

/-- The stream bits of the instruction the table numbers `w`, lowest address first. -/
def tableStream (nbits w : Nat) : Option BitString :=
  (tableRows.find? fun row => row.covers nbits w).map fun row => bitsOf row.length w

/-- The instruction the decoder reads from the instruction whose bits, as the table numbers them, are `w`. Bits past the
table's are zeros. -/
def decodeTableWord (nbits w : Nat) : Option Instr :=
  match tableStream nbits w with
  | none => none
  | some bits =>
    match decode Params.reference (bits ++ List.replicate Params.reference.maxLength false) with
    | .ok (i, _) => some i
    | .error _ => none

end Sys2Proof
end

