-- ==== Sys2Proof/Machine/State.lean ====
section
/-! DEFINITION. The machine's state (spec/10_state.md R20 to R36), the reasons a step can stop, and the state after
reset. The spec's state is the tuple `(reg, pc, mem, halted, obuf, out)`; `params` is the model's own field. -/

namespace Sys2Proof.Machine

/-- Memory (R25, spec/20_memory.md R40): cells as pairs of a BIT address and the bit it holds, addresses strictly rising,
no cell equal to what an unlisted address reads as (`Memory.unlisted`, Machine/Ops.lean; the form is `Memory.wf`). The
unit of addressing is one bit, so a cell is `Nat × Bit` where a byte machine has `Host.Cell` (assumption log 2). -/
abbrev Memory := List (Nat × Bit)

/-- The state. Everything is plain data. -/
structure State where
  /-- The parameters `(r, m, OUT_WIDTH)` of this machine. THE MODEL'S OWN FIELD: the spec takes them as arguments fixed
  for the life of a machine (R4, R5, R33); no step changes them (assumption log 1). -/
  params : Params
  /-- `reg[n][i]`: `2^r` registers, each a bit string of `W` bits, index 0 most significant (R20, R21). -/
  regs : List BitString
  /-- `pc`, the bit address of the next instruction's first bit; always taken modulo `MEMSIZE` (R23). -/
  pc : Nat
  /-- `mem`, the one address space: code, data and the I/O cells 0, 1, 2 (R25, R26, R40). -/
  mem : Memory
  /-- `halted`, set by the write of 1 to address 0; not memory-mapped (R27). -/
  halted : Bool
  /-- `obuf`, the output bit buffer, oldest bit first (R28). -/
  obuf : BitString
  /-- `out`, the code points emitted so far, oldest first (R29). -/
  out : List Nat
deriving DecidableEq, Repr

/-- Why a step ends without a next state. -/
inductive Fault where
  /-- A read touched address 2: an instruction fetch or `MEMJMP`'s condition read. Raised by `memRead`. The source calls
  the read undefined and the spec says the step faults (spec/93_implementation_defined.md U1). Safe: the model stops
  where a real machine may go on with an unknown bit. -/
  | undefinedRead
  /-- The machine has halted, so it has no step, forever (spec/40_execution_loop.md R101). Raised by `haltedOutcome`. It
  is the successful end of a run and no error of the machine. Exact, hence safe. -/
  | halted
deriving DecidableEq, Repr

/-- Why the model gives no meaning. -/
inductive Refusal where
  /-- An instruction rejected by name in `exec`'s arm; no arm of this model raises it. Safe. -/
  | notModelled (mnemonic : String)
  /-- A register or bit index outside the register file. Raised by `withIndex` for an instruction that no field of an
  encoding can hold, a programmer-contract violation that cannot arise in a running machine (R20, R36,
  spec/93_implementation_defined.md U5). Safe: no value is made up. -/
  | indexOutOfRange
  /-- The program image does not fit above the I/O cells (spec/20_memory.md R55). Raised by `launch`. Safe: the spec
  refuses the launch. -/
  | imageTooLong
  /-- The arguments of a launch describe no machine of the spec: illegal parameters, or initial contents of the wrong
  shape (R4, R5, R34, R35). Raised by `launch`. Safe: no run begins. -/
  | illegalLaunch
deriving DecidableEq, Repr

/-- A register file with every bit 0: one admissible `REG_INIT` (R34). -/
def zeroRegs (P : Params) : List BitString :=
  List.replicate P.regCount (List.replicate P.width false)

/-- The machine right after reset (R34, spec/70_reset_and_hazards.md R190 to R192) in the reference configuration, with
no image placed: `pc = 3`, running, both output sequences empty. The spec leaves `REG_INIT` and `MEM_INIT` open; this one
state has all bits zero (DESIGN CHOICE, unsafe, assumption log 3). `launch` (Machine/Launch.lean) is reset with the
parameters, `REG_INIT`, `MEM_INIT` and the image as arguments. -/
def State.reset : State where
  params := Params.reference
  regs := zeroRegs Params.reference
  pc := loadAddr
  mem := []
  halted := false
  obuf := []
  out := []

end Sys2Proof.Machine
end

