-- ==== Sys2Proof/Machine/Ops.lean ====
section
/-! DEFINITION. The named operations over memory, the output stage, the program counter and the halt
(spec/20_memory.md R40 to R59, spec/40_execution_loop.md R101 to R106). There is no operation that takes an exception and
none that returns from one: the machine has no exceptions, no interrupts and one mode (spec/60_exceptions.md R160 to
R167). -/

namespace Sys2Proof.Machine

/-! ## Memory as a list of cells -/

/-- What an unlisted address reads as. Every content of a memory of `MEMSIZE` bits has exactly one list, whichever bit
this is; that `State.reset` lists nothing is the choice (assumption log 3). -/
def Memory.unlisted : Bit := false

/-- The bit stored at an address. -/
def Memory.read : Memory → Nat → Bit
  | [], _ => Memory.unlisted
  | (x, v) :: rest, a => if x = a then v else Memory.read rest a

/-- One cell in front of a list, unless it holds what an unlisted address reads as. -/
def Memory.cons (a : Nat) (b : Bit) (rest : Memory) : Memory :=
  if b = Memory.unlisted then rest else (a, b) :: rest

/-- Store one bit, keeping the canonical form. -/
def Memory.write : Memory → Nat → Bit → Memory
  | [], a, b => Memory.cons a b []
  | (x, v) :: rest, a, b =>
    if a < x then Memory.cons a b ((x, v) :: rest)
    else if a = x then Memory.cons a b rest
    else (x, v) :: Memory.write rest a b

/-- The canonical form: addresses strictly rising, and no cell equal to what an unlisted address reads as. -/
abbrev Memory.wf (mem : Memory) : Prop :=
  mem.Pairwise (fun c d => c.1 < d.1) ∧ ∀ c ∈ mem, c.2 ≠ Memory.unlisted

/-- Store a bit string at ascending addresses from `a`, each modulo `size` (R41). These are no `MemWrite`s, so they fire
no trigger (R55). -/
def Memory.storeBits (size : Nat) : Memory → Nat → BitString → Memory
  | mem, _, [] => mem
  | mem, a, b :: bs => Memory.storeBits size (Memory.write mem (a % size) b) (a + 1) bs

/-! ## Reading and writing memory -/

/-- `MemRead(a, 1)` (R42): the bit at `a mod MEMSIZE`, with no side effect; a read of address 2 is undefined and faults
(spec/93_implementation_defined.md U1, assumption log 4). -/
def memRead (s : State) (a : Nat) : Except Fault Bit :=
  let a' := a % s.params.memSize
  if a' = outTrigCell then .error .undefinedRead else .ok (s.mem.read a')

/-- The output trigger (R46, R47): append the bit at address 1 to `obuf`; when `OUT_WIDTH` bits are there, emit the code
point they form, first bit most significant, and empty the buffer. -/
def outputTrigger (s : State) : State :=
  let buf := s.obuf ++ [s.mem.read outBitCell]
  if buf.length = s.params.outWidth then { s with obuf := [], out := s.out ++ [uint buf] }
  else { s with obuf := buf }

/-- The halt signal (R44). -/
def halt (s : State) : State := { s with halted := true }

/-- `MemWrite(a, 1, b)` (R43): the store always comes first; then a 1 written to address 0 halts and a 1 written to
address 2 triggers output. The effects belong to the write event, whatever the cell held before (R49). -/
def memWrite (s : State) (a : Nat) (b : Bit) : State :=
  let a' := a % s.params.memSize
  let stored := { s with mem := s.mem.write a' b }
  if a' = haltCell ∧ b = true then halt stored
  else if a' = outTrigCell ∧ b = true then outputTrigger stored
  else stored

/-! ## The program counter and the halt -/

/-- `pc <- t`: the program counter becomes `t mod MEMSIZE` (spec/00_scope.md R8). -/
def setPc (s : State) (t : Nat) : State := { s with pc := t % s.params.memSize }

/-- `last`, the address of the last bit of an instruction of `len` bits that begins at `pc` (R103). -/
def lastAddr (s : State) (len : Nat) : Nat := (s.pc + len - 1) % s.params.memSize

/-- What a step of a halted machine answers: the core has none, forever (R101, spec/60_exceptions.md R172). -/
def haltedOutcome : Host.Outcome State Fault Refusal := .fault .halted

/-! ## Sequencing -/

/-- Go on with an operand, or refuse an index outside the register file. -/
def withIndex {α : Type} (x : Option α) (k : α → Host.Outcome State Fault Refusal) :
    Host.Outcome State Fault Refusal :=
  match x with
  | some v => k v
  | none => .refused .indexOutOfRange

/-- Go on with what was read, or fault for the reason the read gives. -/
def withRead {α : Type} (x : Except Fault α) (k : α → Host.Outcome State Fault Refusal) :
    Host.Outcome State Fault Refusal :=
  match x with
  | .ok v => k v
  | .error e => .fault e

end Sys2Proof.Machine
end

