-- ==== Sys2Proof/Machine/Operands.lean ====
section
/-! DEFINITION. The operand forms (spec/10_state.md R20 to R22): the whole value of a register, which is the machine's only
addressing mode and its only displacement, and one bit of a register. No register is hard-wired, aliased or banked
(R20), so a register is read and written as it is. -/

namespace Sys2Proof.Machine

/-- `val(n)`, the source's `registerValue(n)`: the register's bits as a big-endian unsigned integer (R21). -/
def regVal (s : State) (n : Nat) : Option Nat := (s.regs[n]?).map uint

/-- `reg[n][i]`, the source's `readRegisterBit(n, i)`; `i = 0` is the most significant bit (R21). -/
def regBit (s : State) (n i : Nat) : Option Bit := (s.regs[n]?).bind fun bits => bits[i]?

/-- `reg[n][i] <- b`, the source's `writeRegisterBit(n, i, b)`: the other bits and the other registers are unchanged
(R20, R22). -/
def setRegBit (s : State) (n i : Nat) (b : Bit) : Option State :=
  (regBit s n i).map fun _ => { s with regs := s.regs.modify n fun bits => bits.set i b }

end Sys2Proof.Machine
end

