-- ==== Sys2Proof/Machine/Flags.lean ====
section
/-! DEFINITION. The machine has no flags, condition codes or predicate registers (spec/10_state.md R30). What stands here
is what a conditional jump does with the one bit it tests (spec/40_execution_loop.md R104 to R106). -/

namespace Sys2Proof.Machine

/-- What the program counter advances by from the instruction's last bit: `val(k)` when the condition bit is 1, else 1
(R105). -/
def advanceBy (c : Bit) (displacement : Nat) : Nat := if c then displacement else 1

/-- The jump advance from `last` (R105); the sum is modulo `MEMSIZE` and its carry is lost (R106). The base is the last
bit of the jump (decision D3, assumption log 6). -/
def jumpAdvance (s : State) (last : Nat) (c : Bit) (displacement : Nat) : State :=
  setPc s (last + advanceBy c displacement)

/-- The sequential advance to the bit after the instruction (R104). -/
def fallThrough (s : State) (last : Nat) : State := setPc s (last + 1)

end Sys2Proof.Machine
end

