-- ==== Sys2Proof/Machine/MemoryDomain.lean ====
section
/-! DEFINITION. The memory-domain instructions `MEMSET` and `MEMJMP` (spec/41_memory_domain.md R120, R121). -/

namespace Sys2Proof.Machine

/-- `MEMSET`, `mem[reg[n]] = b` (R120): store `b` at `val(n)` with the triggers of addresses 0 and 2, then fall through. A
halting write also moves the program counter (R104, decision D11). -/
def execMemset (n : Nat) (b : Bit) (s : State) : Host.Outcome State Fault Refusal :=
  withIndex (regVal s n) fun a =>
    .next (fallThrough (memWrite s a b) (lastAddr s (Instr.length s.params (.memset n b))))

/-- `MEMJMP`, `mem[reg[n]] ? pp += reg[k]` (R121): test the memory bit at `val(n)` and advance from the instruction's last
bit by `val(k)` or by 1. A condition read of address 2 faults (R42, U1). -/
def execMemjmp (n k : Nat) (s : State) : Host.Outcome State Fault Refusal :=
  withIndex (regVal s n) fun a =>
    withIndex (regVal s k) fun d =>
      withRead (memRead s a) fun c =>
        .next (jumpAdvance s (lastAddr s (Instr.length s.params (.memjmp n k))) c d)

end Sys2Proof.Machine
end

