-- ==== Sys2Proof/Machine/RegisterDomain.lean ====
section
/-! DEFINITION. The register-domain instructions `REGSET` and `REGJMP` (spec/42_register_domain.md R130, R131). -/

namespace Sys2Proof.Machine

/-- `REGSET`, `reg[n][i] = b` (R130): write one bit of one register, then fall through. No register value ever triggers a
memory-mapped effect. -/
def execRegset (n i : Nat) (b : Bit) (s : State) : Host.Outcome State Fault Refusal :=
  withIndex (setRegBit s n i b) fun t =>
    .next (fallThrough t (lastAddr s (Instr.length s.params (.regset n i b))))

/-- `REGJMP`, `reg[n][i] ? pp += reg[k]` (R131): test one register bit and advance from the instruction's last bit by
`val(k)` or by 1. -/
def execRegjmp (n i k : Nat) (s : State) : Host.Outcome State Fault Refusal :=
  withIndex (regBit s n i) fun c =>
    withIndex (regVal s k) fun d =>
      .next (jumpAdvance s (lastAddr s (Instr.length s.params (.regjmp n i k))) c d)

end Sys2Proof.Machine
end

