-- ==== Sys2Proof/Machine/Dispatch.lean ====
section
/-! DEFINITION. One arm per instruction: each calls its meaning. -/

namespace Sys2Proof.Machine

/-- What one instruction does, given that it stands at `pc`. -/
def exec (i : Instr) (s : State) : Host.Outcome State Fault Refusal :=
  match i with
  | .memset n b => Sys2Proof.Machine.execMemset n b s
  | .memjmp n k => Sys2Proof.Machine.execMemjmp n k s
  | .regset n ix b => Sys2Proof.Machine.execRegset n ix b s
  | .regjmp n ix k => Sys2Proof.Machine.execRegjmp n ix k s

end Sys2Proof.Machine
end

