-- ==== Sys2Proof/Machine/Fetch.lean ====
section
/-! DEFINITION. Instruction fetch (spec/30_encoding.md R70, spec/40_execution_loop.md R102) and the placing of the opcode
table's words where the next step fetches. -/

namespace Sys2Proof.Machine

/-- Fetch and decode the instruction at `pc` from memory as it is at the start of the step (R102): bit `j` is the memory
bit at `pc + j` modulo `MEMSIZE`, and a fetch that touches address 2 reads an undefined bit (R42). -/
def fetch (s : State) : Except Fault Instr :=
  decodeFrom s.params fun j => memRead s (s.pc + j)

/-- `s` with a bit string stored where the next instruction is fetched, and running: a halted machine fetches nothing. No
trigger fires. -/
def State.withFetchBits (s : State) (bits : BitString) : State :=
  { s with mem := s.mem.storeBits s.params.memSize s.pc bits, halted := false }

/-- The bits of a table word followed by zeros up to the longest instruction. -/
def paddedTableStream (nbits w : Nat) : BitString :=
  (((tableStream nbits w).getD []) ++ List.replicate Params.reference.maxLength false).take Params.reference.maxLength

end Sys2Proof.Machine
end

