-- ==== Sys2Proof/Machine/Step.lean ====
section
/-! DEFINITION. One step: the complete execution of one instruction, atomically (spec/40_execution_loop.md R100, R112). -/

namespace Sys2Proof.Machine

/-- The core has a step exactly when it has not halted (R101): fetch and decode the instruction at `pc`, then execute it. -/
def step (s : State) : Host.Outcome State Fault Refusal :=
  if s.halted then haltedOutcome else withRead (fetch s) fun i => exec i s

/-- `s` with the instruction that the opcode table numbers `w` stored where `step` fetches its next one. -/
def State.withFetchWord (s : State) (nbits w : Nat) : State :=
  s.withFetchBits (paddedTableStream nbits w)

end Sys2Proof.Machine
end

