-- ==== Sys2Proof/Machine/Launch.lean ====
section
/-! DEFINITION. Reset as the spec describes it: the launch of a machine with the parameters, `REG_INIT`, `MEM_INIT` and the
program image as arguments (spec/10_state.md R34, spec/20_memory.md R54, R55, spec/70_reset_and_hazards.md R190). -/

namespace Sys2Proof.Machine

/-- The bits of an image in loading order, each byte most significant bit first (R54). -/
def imageBits (image : List Byte) : BitString := image.flatMap fun byte => bitsOf 8 byte.toNat

/-- `REG_INIT` gives every one of the `2^r` registers a value of `W` bits (R34, R35). -/
abbrev regInitOk (P : Params) (regInit : List BitString) : Prop :=
  regInit.length = P.regCount ∧ ∀ bits ∈ regInit, bits.length = P.width

/-- `MEM_INIT` gives every cell a bit: a memory in canonical form, none of whose cells lies outside the address space. Every
content of `MEMSIZE` bits has exactly one such list (R34, R35). -/
abbrev memInitOk (P : Params) (memInit : Memory) : Prop :=
  memInit.wf ∧ ∀ c ∈ memInit, c.1 < P.memSize

/-- The image fits above the I/O cells: `8 · len(IMAGE) ≤ MEMSIZE - 3` (R55). -/
abbrev imageFits (P : Params) (image : List Byte) : Prop :=
  8 * image.length + loadAddr ≤ P.memSize

/-- The launch (R190): every state element takes its reset value, the image is loaded over memory from address 3 upward
with no trigger fired, and the machine is ready for its first step at address 3. An image that does not fit is refused
(R55). -/
def launch (P : Params) (regInit : List BitString) (memInit : Memory) (image : List Byte) :
    Host.Outcome State Fault Refusal :=
  if P.legal ∧ regInitOk P regInit ∧ memInitOk P memInit then
    if imageFits P image then
      .next {
        params := P
        regs := regInit
        pc := loadAddr
        mem := memInit.storeBits P.memSize loadAddr (imageBits image)
        halted := false
        obuf := []
        out := [] }
    else .refused .imageTooLong
  else .refused .illegalLaunch

end Sys2Proof.Machine
end

