-- ==== Sys2Proof/Machine/Assembler.lean ====
section
/-! DEFINITION. The toolchain's part that the spec puts in scope (spec/00_scope.md R3 (g)): the source text of the four
templates (spec/30_encoding.md R85), the composite "set whole register" forms (spec/43_composite_set_register.md R140 to
R147), the encoding and the size of a line, and the packing of encodings into an image (R84). Placeholders, labels and whole
programs are in Machine/Labels.lean. No rule of the machine depends on this file. -/

namespace Sys2Proof.Machine

/-! ## Source templates -/

/-- A bit as the templates write it. -/
def bitText (b : Bit) : String := if b then "1" else "0"

/-- `reg[n]`. -/
def regText (n : Nat) : String := "reg[" ++ toString n ++ "]"

/-- The source line of a machine instruction in the bracketed templates of R85 (conflict C1). -/
def sourceLine : Instr → String
  | .memset n b => "mem[" ++ regText n ++ "] = " ++ bitText b
  | .memjmp n k => "mem[" ++ regText n ++ "] ? pp += " ++ regText k
  | .regset n i b => regText n ++ "[" ++ toString i ++ "] = " ++ bitText b
  | .regjmp n i k => regText n ++ "[" ++ toString i ++ "] ? pp += " ++ regText k

/-! ## Composite forms -/

/-- `bit_i(c)`: the bit of `c` of weight `2^(W-1-i)`, that is bit `i` of `bits_W(c)`. -/
def constBit (P : Params) (c i : Nat) : Bit := c.testBit (P.width - 1 - i)

/-- Expansion of `setFullRegisterFromAny(n, const)`: one `REGSET` per bit of the register, ascending bit index
(R141, R144). -/
def expandFromAny (P : Params) (n const : Nat) : List Instr :=
  (List.range P.width).map fun i => .regset n i (constBit P const i)

/-- Expansion of `setFullRegisterFromKnown(n, init, const)`: a `REGSET` only where the assumed value and the target differ
(R142, R144). -/
def expandFromKnown (P : Params) (n init const : Nat) : List Instr :=
  ((List.range P.width).filter fun i => constBit P init i != constBit P const i).map fun i =>
    .regset n i (constBit P const i)

/-- Encode a list of instructions without gaps (R70, R84). -/
def encodeAll (P : Params) (prog : List Instr) : BitString := prog.flatMap (encode P)

/-- `setFullRegisterFromAny(n, const)` with its range checks (R141, R145). If neither input fits the error names `n` (DESIGN CHOICE,
assumption log 24). -/
def setFullRegisterFromAny (P : Params) (n const : Int) : Except AsmError BitString := do
  checkFields [⟨n, P.r⟩, ⟨const, P.width⟩]
  .ok (encodeAll P (expandFromAny P n.toNat const.toNat))

/-- `setFullRegisterFromKnown(n, init, const)` with its range checks (R142, R145); with `init = const` a valid zero-length
emission (R147). Of several inputs that do not fit the error names the first of `n`, `init`, `const` (DESIGN CHOICE, assumption log
24). -/
def setFullRegisterFromKnown (P : Params) (n init const : Int) : Except AsmError BitString := do
  checkFields [⟨n, P.r⟩, ⟨init, P.width⟩, ⟨const, P.width⟩]
  .ok (encodeAll P (expandFromKnown P n.toNat init.toNat const.toNat))

/-- The constant of the derived form: `(a − b) mod 2^W`, never negative (R143). -/
def differenceConst (P : Params) (a b : Int) : Nat := ((a - b) % (2 ^ P.width : Nat)).toNat

/-- `setFullRegisterDifference` handed to the any form (R143). -/
def setFullRegisterDifferenceFromAny (P : Params) (n a b : Int) : Except AsmError BitString :=
  setFullRegisterFromAny P n (differenceConst P a b)

/-- `setFullRegisterDifference` handed to the known form (R143). -/
def setFullRegisterDifferenceFromKnown (P : Params) (n init a b : Int) : Except AsmError BitString :=
  setFullRegisterFromKnown P n init (differenceConst P a b)

/-- The displacement that reaches image offset `target` from a jump whose last bit is at image offset `last` (R143). -/
def displacementTo (P : Params) (target last : Nat) : Nat := differenceConst P target last

/-- The initial value a composite form assumes (R140): unknown to the form, or known, itself perhaps not resolved yet. -/
inductive AssumedInit where
  | any
  | known (init : Option Int)
deriving DecidableEq, Repr

/-- The size range `[min, max]` in bits of a composite form (R146): exact when every input is concrete, and
`[0, W · (3 + r + m)]` when any input, the register index among them, is unresolved (`none`). For concrete inputs that do not
fit, which no encoder accepts, the spec gives no size and does not say whether analysis fails: DESIGN CHOICE (assumption log
23), the same formula with the inputs read through `toNat` and, for the known form, their low `W` bits compared. -/
def compositeSizeRange (P : Params) (n : Option Int) (init : AssumedInit) (const : Option Int) : Nat × Nat :=
  let sub := 3 + P.r + P.m
  let conservative := (0, P.width * sub)
  match n, init, const with
  | some _, .any, some _ => (P.width * sub, P.width * sub)
  | some n, .known (some v), some c =>
    let hamming := (expandFromKnown P n.toNat v.toNat c.toNat).length
    (hamming * sub, hamming * sub)
  | none, _, _ => conservative
  | some _, .any, none => conservative
  | some _, .known none, _ => conservative
  | some _, .known (some _), none => conservative

/-! ## Source lines -/

/-- One source line: a machine instruction's template or a composite form with its operands (R85, R86). With `α = Int` the
operands are the numbers passed to the encoder; with `α = Option Int` an unresolved one is `none`. -/
inductive SourceLine (α : Type) where
  | template (t : Template α)
  | setFromAny (n const : α)
  | setFromKnown (n init const : α)
  | setDifferenceFromAny (n a b : α)
  | setDifferenceFromKnown (n init a b : α)
deriving DecidableEq, Repr

/-- The same line over other operands. -/
def SourceLine.map {α β : Type} (f : α → β) : SourceLine α → SourceLine β
  | .template t => .template (t.map f)
  | .setFromAny n const => .setFromAny (f n) (f const)
  | .setFromKnown n init const => .setFromKnown (f n) (f init) (f const)
  | .setDifferenceFromAny n a b => .setDifferenceFromAny (f n) (f a) (f b)
  | .setDifferenceFromKnown n init a b => .setDifferenceFromKnown (f n) (f init) (f a) (f b)

/-- The bit string of one line, or its encoding error. -/
def encodeLine (P : Params) : SourceLine Int → Except AsmError BitString
  | .template t => encodeChecked P t
  | .setFromAny n const => setFullRegisterFromAny P n const
  | .setFromKnown n init const => setFullRegisterFromKnown P n init const
  | .setDifferenceFromAny n a b => setFullRegisterDifferenceFromAny P n a b
  | .setDifferenceFromKnown n init a b => setFullRegisterDifferenceFromKnown P n init a b

/-- The difference constant, unknown while `a` or `b` is. -/
def differenceOperand (P : Params) : Option Int → Option Int → Option Int
  | some a, some b => some (differenceConst P a b)
  | none, _ => none
  | some _, none => none

/-- The size range of a line (R91, R146): a machine template has its format's length, whatever its operands. -/
def lineSizeRange (P : Params) : SourceLine (Option Int) → Nat × Nat
  | .template t => (t.length P, t.length P)
  | .setFromAny n const => compositeSizeRange P n .any const
  | .setFromKnown n init const => compositeSizeRange P n (.known init) const
  | .setDifferenceFromAny n a b => compositeSizeRange P n .any (differenceOperand P a b)
  | .setDifferenceFromKnown n init a b => compositeSizeRange P n (.known init) (differenceOperand P a b)

/-! ## Images -/

/-- The byte a group of up to eight bits packs to, most significant bit first, zero-padded on the right (R84). -/
def packByte (bits : BitString) : Byte := BitVec.ofNat 8 (uint bits * 2 ^ (8 - bits.length))

/-- Pack a bit string into bytes: `fuel` bounds the number of bytes. -/
def packFuel : Nat → BitString → List Byte
  | 0, _ => []
  | fuel + 1, bits => if bits.isEmpty then [] else packByte (bits.take 8) :: packFuel fuel (bits.drop 8)

/-- Pack a bit string into an image; a trailing partial byte is zero-padded (R54, R84). -/
def packImage (bits : BitString) : List Byte := packFuel bits.length bits

/-- The memory address of an image offset: label values are offsets (R54, R87). -/
def imageAddr (offset : Nat) : Nat := loadAddr + offset

end Sys2Proof.Machine
end

