-- ==== Sys2Proof/Machine/Labels.lean ====
section
/-! DEFINITION. Placeholders, labels, and how a captured source line and a whole program are evaluated
(spec/30_encoding.md R87 to R91). The pattern registry, which turns a line's text into captured placeholders, and the driver
that finds the label offsets are out of scope (spec/00_scope.md R3): a line comes here as its captured placeholders, and the
offsets come as the queue of R89. No rule of the machine depends on this file. -/

namespace Sys2Proof.Machine

/-- A label's name, without `.` or `@.`. -/
abbrev Label := List Char

/-- Labels with the image offsets they resolve to (R87). -/
abbrev LabelTable := List (Label × Nat)

/-! ## Placeholders -/

/-- The kinds a placeholder may declare (R88). -/
inductive PlaceholderKind where
  /-- `N`: an integer literal. -/
  | N
  /-- `S`: the raw captured text. -/
  | S
  /-- `X`: a label reference or an integer literal. -/
  | X
  /-- `L`: a label declaration or a label reference. -/
  | L
  /-- A backtick-delimited exact token. -/
  | exact (token : List Char)
deriving DecidableEq, Repr

/-- A placeholder of a line: the kinds it declares, in order, and the text it captured. -/
structure Placeholder where
  kinds : List PlaceholderKind
  token : List Char
deriving DecidableEq, Repr

/-- What a captured text is recognised as (R88). -/
inductive Captured where
  /-- An integer literal, passed to the encoder. -/
  | literal (v : Int)
  /-- Text, passed to the encoder unchanged. -/
  | text (token : List Char)
  /-- A label reference, for which the label's resolved offset is passed. -/
  | reference (name : Label)
  /-- A label declaration: nothing is passed to the encoder. -/
  | declares (name : Label)
  /-- The exact token was there: nothing is passed (DESIGN CHOICE, assumption log 22). -/
  | matched
deriving DecidableEq, Repr

/-- A label token with the name in it. R90 makes a malformed label token an `InvalidOperand` and does not say which tokens are
malformed. DESIGN CHOICE (assumption log 20): a token with an empty name, `.` or `@.` alone, is malformed, whatever kinds
follow; every other name is well formed. -/
def labelToken (token : List Char) (name : Label) (found : Captured) : Except AsmError (Option Captured) :=
  if name.isEmpty then .error (.invalidOperand token) else .ok (some found)

/-- An integer literal, if the text is one; the literal syntax is a free value (assumption log 19). -/
def literalToken (token : List Char) : Option Captured := (Config.intLiteral token).map .literal

/-- One kind tried on a captured text (R88): `none` when the text is not of this kind. A label reference is text that begins
with `.`, a declaration has the form `@.name`. Which of them are malformed is `labelToken`'s choice (assumption log 20). -/
def tryKind (kind : PlaceholderKind) (token : List Char) : Except AsmError (Option Captured) :=
  match kind, token with
  | .N, _ => .ok (literalToken token)
  | .S, _ => .ok (some (.text token))
  | .X, '.' :: name => labelToken token name (.reference name)
  | .X, _ => .ok (literalToken token)
  | .L, '@' :: '.' :: name => labelToken token name (.declares name)
  | .L, '.' :: name => labelToken token name (.reference name)
  | .L, _ => .ok none
  | .exact wanted, _ => .ok (if token = wanted then some .matched else none)

/-- The declared kinds are tried in order and the first success wins; text that is of no declared kind is an
`InvalidOperand` (R88). -/
def recognise : List PlaceholderKind → List Char → Except AsmError Captured
  | [], token => .error (.invalidOperand token)
  | kind :: kinds, token => do
    match ← tryKind kind token with
    | some found => .ok found
    | none => recognise kinds token

/-- The placeholders of a line in encounter order; of several that fail the first is the error (DESIGN CHOICE, assumption log 24). -/
def recogniseAll : List Placeholder → Except AsmError (List Captured)
  | [] => .ok []
  | p :: rest => do
    let found ← recognise p.kinds p.token
    let more ← recogniseAll rest
    .ok (found :: more)

/-- The labels a list of captured placeholders declares, in order. -/
def declaredNames (found : List Captured) : List Label := found.filterMap fun c =>
  match c with
  | .declares name => some name
  | .literal _ => none
  | .text _ => none
  | .reference _ => none
  | .matched => none

/-- The labels it refers to, in order; a label referred to twice stands twice. -/
def referencedNames (found : List Captured) : List Label := found.filterMap fun c =>
  match c with
  | .reference name => some name
  | .literal _ => none
  | .text _ => none
  | .declares _ => none
  | .matched => none

/-! ## From captured placeholders to the encoder -/

/-- What a placeholder passes to the encoder. -/
inductive Operand (α : Type) where
  | number (v : α)
  | text (token : List Char)
deriving DecidableEq, Repr

/-- The operands captured placeholders pass to the encoder, and the label offsets left over: a literal its number (`lit`), a
label reference the next entry of the queue (R88, which says so of kind `X`; for `L` see assumption log 19), a declaration
nothing (R88). That an exact token passes nothing is a DESIGN CHOICE (assumption log 22): R88 does not say. A reference with
no entry left is an `UnresolvedLabelReference` (R90). -/
def takeOperands {α : Type} (lit : Int → α) : List Captured → List α → Except AsmError (List (Operand α) × List α)
  | [], queue => .ok ([], queue)
  | .literal v :: rest, queue => do
    let (operands, left) ← takeOperands lit rest queue
    .ok (.number (lit v) :: operands, left)
  | .text token :: rest, queue => do
    let (operands, left) ← takeOperands lit rest queue
    .ok (.text token :: operands, left)
  | .reference _ :: _, [] => .error .unresolvedLabelReference
  | .reference _ :: rest, offset :: queue => do
    let (operands, left) ← takeOperands lit rest queue
    .ok (.number offset :: operands, left)
  | .declares _ :: rest, queue => takeOperands lit rest queue
  | .matched :: rest, queue => takeOperands lit rest queue

/-- Which encoder a sub-encoding of a line calls. -/
inductive LineForm where
  | memset
  | memjmp
  | regset
  | regjmp
  | setFromAny
  | setFromKnown
  | setDifferenceFromAny
  | setDifferenceFromKnown
deriving DecidableEq, Repr

/-- The encoder's parameters filled with the operands, in the order of the template (R85) or of the encoder's parameter list
(R140). The spec gives the difference forms no parameter list; theirs is a DESIGN CHOICE (assumption log 19). -/
def LineForm.fill {α : Type} : LineForm → List (Operand α) → Option (SourceLine α)
  | .memset, [.number n, .number b] => some (.template (.memset n b))
  | .memjmp, [.number n, .number k] => some (.template (.memjmp n k))
  | .regset, [.number n, .number i, .number b] => some (.template (.regset n i b))
  | .regjmp, [.number n, .number i, .number k] => some (.template (.regjmp n i k))
  | .setFromAny, [.number n, .number const] => some (.setFromAny n const)
  | .setFromKnown, [.number n, .number init, .number const] => some (.setFromKnown n init const)
  | .setDifferenceFromAny, [.number n, .number a, .number b] => some (.setDifferenceFromAny n a b)
  | .setDifferenceFromKnown, [.number n, .number init, .number a, .number b] =>
    some (.setDifferenceFromKnown n init a b)
  | .memset, _ => none
  | .memjmp, _ => none
  | .regset, _ => none
  | .regjmp, _ => none
  | .setFromAny, _ => none
  | .setFromKnown, _ => none
  | .setDifferenceFromAny, _ => none
  | .setDifferenceFromKnown, _ => none

/-- The sub-encoding with its operands; what is not one number for each parameter is an `operandMismatch`. -/
def LineForm.build {α : Type} (form : LineForm) (operands : List (Operand α)) : Except AsmError (SourceLine α) :=
  match form.fill operands with
  | some line => .ok line
  | none => .error .operandMismatch

/-! ## Lines -/

/-- A stretch of a captured line: its placeholders in encounter order, and the sub-encoding they feed. A plain line is one
stretch. A line with several sub-encodings (R86, R87) is several; a stretch without an encoding holds declarations only and
marks an interior offset, such as "one past the last emitted bit of a jump instruction". The source defines no such line (N14);
this form of it is a DESIGN CHOICE (assumption log 21). -/
structure LinePart where
  form : Option LineForm
  placeholders : List Placeholder
deriving DecidableEq, Repr

/-- A captured line; `none` is a line that matched no registered template. -/
abbrev CapturedLine := Option (List LinePart)

/-- What an evaluated line is made of, in the order of its bits. -/
inductive Piece (α : Type) where
  /-- A label declared at the current bit offset: a zero-width point (R87, R88). -/
  | label (name : Label)
  /-- A sub-encoding. -/
  | emit (line : SourceLine α)
deriving DecidableEq, Repr

/-- The stretches with their placeholders recognised. -/
def recogniseParts : List LinePart → Except AsmError (List (Option LineForm × List Captured))
  | [] => .ok []
  | part :: rest => do
    let found ← recogniseAll part.placeholders
    let more ← recogniseParts rest
    .ok ((part.form, found) :: more)

/-- A captured line recognised; a line no template matches is a `NoMatchingPattern` (R90). -/
def recogniseLine : CapturedLine → Except AsmError (List (Option LineForm × List Captured))
  | none => .error .noMatchingPattern
  | some parts => recogniseParts parts

/-- A stretch whose placeholders have passed what they pass: its form, the labels it declares, the encoder's operands. -/
structure FilledPart (α : Type) where
  form : Option LineForm
  names : List Label
  operands : List (Operand α)
deriving DecidableEq, Repr

/-- The stretches filled in encounter order, and what is left of the queue. -/
def takeParts {α : Type} (lit : Int → α) :
    List (Option LineForm × List Captured) → List α → Except AsmError (List (FilledPart α) × List α)
  | [], queue => .ok ([], queue)
  | (form, found) :: rest, queue => do
    let (operands, left) ← takeOperands lit found queue
    let (more, left') ← takeParts lit rest left
    .ok (⟨form, declaredNames found, operands⟩ :: more, left')

/-- The pieces of one stretch: its labels at the offset where it starts, then its sub-encoding. -/
def FilledPart.pieces {α : Type} (part : FilledPart α) : Except AsmError (List (Piece α)) :=
  match part.form, part.operands with
  | none, [] => .ok (part.names.map .label)
  | none, _ :: _ => .error .operandMismatch
  | some form, operands => do
    let line ← form.build operands
    .ok (part.names.map .label ++ [.emit line])

/-- The pieces of a line, stretch after stretch. -/
def buildParts {α : Type} : List (FilledPart α) → Except AsmError (List (Piece α))
  | [] => .ok []
  | part :: rest => do
    let pieces ← part.pieces
    let more ← buildParts rest
    .ok (pieces ++ more)

/-- The pieces of a line with the label offsets taken from the queue; every entry must be consumed (R90). -/
def fillLine {α : Type} (lit : Int → α) (parts : List (Option LineForm × List Captured)) (queue : List α) :
    Except AsmError (List (Piece α)) := do
  match ← takeParts lit parts queue with
  | (filled, []) => buildParts filled
  | (_, _ :: _) => .error .unconsumedOffsets

/-- The bits of a line's pieces, the first of them at image offset `start`, and the labels declared among them, each with the
bit offset at which it occurs (R87). A zero-length sub-encoding moves no offset (R147). -/
def emitPieces (P : Params) (start : Nat) : List (Piece Int) → Except AsmError (BitString × LabelTable)
  | [] => .ok ([], [])
  | .label name :: rest => do
    let (bits, table) ← emitPieces P start rest
    .ok (bits, (name, start) :: table)
  | .emit line :: rest => do
    let bits ← encodeLine P line
    let (more, table) ← emitPieces P (start + bits.length) rest
    .ok (bits ++ more, table)

/-- Evaluation mode of one line (R89): its bits and the final offsets of the labels it declares, from the resolved offsets of
the labels it refers to. -/
def evalLine (P : Params) (start : Nat) (line : CapturedLine) (offsets : List Nat) :
    Except AsmError (BitString × LabelTable) := do
  let parts ← recogniseLine line
  let pieces ← fillLine id parts (offsets.map Int.ofNat)
  emitPieces P start pieces

/-! ## Analysis -/

/-- What analysis mode answers for a line (R89). -/
structure Analysis where
  minBits : Nat
  maxBits : Nat
  declared : List Label
  referenced : List Label
deriving DecidableEq, Repr

/-- The size range of a line's pieces: the sum of the sub-encodings' ranges (DEDUCED, assumption log 21). -/
def piecesSizeRange (P : Params) : List (Piece (Option Int)) → Nat × Nat
  | [] => (0, 0)
  | .label _ :: rest => piecesSizeRange P rest
  | .emit line :: rest =>
    ((lineSizeRange P line).1 + (piecesSizeRange P rest).1, (lineSizeRange P line).2 + (piecesSizeRange P rest).2)

/-- Analysis mode of one line (R89, R91): every label reference is unresolved, so it passes `none`. -/
def analyseLine (P : Params) (line : CapturedLine) : Except AsmError Analysis := do
  let parts ← recogniseLine line
  let found := parts.flatMap Prod.snd
  let pieces ← fillLine some parts ((referencedNames found).map fun _ => none)
  let range := piecesSizeRange P pieces
  .ok { minBits := range.1, maxBits := range.2, declared := declaredNames found, referenced := referencedNames found }

/-! ## Programs -/

/-- An assembler error with the line it stands on (R90: "with the offending line identified"; R88: `InvalidOperand` names the
token and the line). A line is named by its position in the program, counted from 0 (DESIGN CHOICE, assumption log 19). -/
structure AsmFailure where
  line : Nat
  error : AsmError
deriving DecidableEq, Repr

/-- The lines' bit strings in source order without gaps, and the labels with their image offsets (R84, R87): the first line
starts at image offset `start` and is line `number`. An error in one line aborts the whole program (R90); of several lines that
fail the first is the one named (DEDUCED, assumption log 24). -/
def evalLines {α : Type} (eval : Nat → α → Except AsmError (BitString × LabelTable)) (start number : Nat) :
    List α → Except AsmFailure (BitString × LabelTable)
  | [] => .ok ([], [])
  | line :: rest =>
    match eval start line with
    | .error e => .error ⟨number, e⟩
    | .ok (bits, table) => do
      let (more, table') ← evalLines eval (start + bits.length) (number + 1) rest
      .ok (bits ++ more, table ++ table')

/-- A program whose placeholders are filled already. -/
def emitProgram (P : Params) (lines : List (List (Piece Int))) : Except AsmFailure (BitString × LabelTable) :=
  evalLines (emitPieces P) 0 0 lines

/-- A program of captured lines, each with the resolved offsets of its references. -/
def evalProgram (P : Params) (lines : List (CapturedLine × List Nat)) : Except AsmFailure (BitString × LabelTable) :=
  evalLines (fun start line => evalLine P start line.1 line.2) 0 0 lines

/-- The image of a program, packed into bytes (R84), with the labels' image offsets. -/
def assemble (P : Params) (lines : List (CapturedLine × List Nat)) : Except AsmFailure (List Byte × LabelTable) := do
  let (bits, table) ← evalProgram P lines
  .ok (packImage bits, table)

/-- The offsets a label table gives the references of a line, in encounter order; a label the table does not hold has
none, and of two entries of one name the first counts (DESIGN CHOICE, assumption log 21). -/
def offsetsFor (table : LabelTable) (line : CapturedLine) : List Nat :=
  match recogniseLine line with
  | .error _ => []
  | .ok parts => (referencedNames (parts.flatMap Prod.snd)).filterMap fun name => table.lookup name

/-- The label table is the program's own: evaluated with the offsets the table gives, the program declares exactly that table
(R87: a reference is resolved to the declaration's numeric offset). How a driver finds such a table is out of scope
(spec/93_implementation_defined.md U7). -/
def resolvesProgram (P : Params) (lines : List CapturedLine) (table : LabelTable) : Prop :=
  ∃ bits, evalProgram P (lines.map fun line => (line, offsetsFor table line)) = .ok (bits, table)

end Sys2Proof.Machine
end

