-- ==== Sys2Proof/Safety.lean ====
section
/-! DEFINITION. What counts as a state of the machine and as a safe step, in the words the statements use. -/

namespace Sys2Proof.Machine

/-- The state invariants of spec/10_state.md R35, with the legality of the parameters (R4, R5) and the canonical form of
memory: `0 ≤ pc < MEMSIZE`; `NREG` registers of exactly `W` bits; no cell outside the `MEMSIZE` addresses;
`|obuf| < OUT_WIDTH`; every code point below `2^OUT_WIDTH`. -/
abbrev State.wf (s : State) : Prop :=
  s.params.legal ∧ s.pc < s.params.memSize ∧ regInitOk s.params s.regs ∧ memInitOk s.params s.mem ∧
    s.obuf.length < s.params.outWidth ∧ ∀ c ∈ s.out, c < 2 ^ s.params.outWidth

/-- A step is safe when it gives a next state or when the machine has halted, the one terminal state (R101, R108). The
unsafe steps are the undefined read of address 2 and a refusal. -/
def safeOutcome : Host.Outcome State Fault Refusal → Bool
  | .next _ => true
  | .fault .halted => true
  | .fault .undefinedRead => false
  | .refused _ => false

/-- The machine runs: it has not halted. -/
abbrev State.running (s : State) : Prop := s.halted = false

/-- The addresses of the bits `pc`, `pc + 1`, …, `pc + len - 1` avoid the output trigger cell, so every bit of a fetch of
`len` bits is defined (R42, spec/70_reset_and_hazards.md R198). -/
abbrev State.fetchAvoidsTrigger (s : State) (len : Nat) : Prop :=
  ∀ j < len, (s.pc + j) % s.params.memSize ≠ outTrigCell

/-- Instructions executed one after another, each at the program counter the one before left. It stops at the first fault or
refusal. -/
def execAll : List Instr → State → Host.Outcome State Fault Refusal
  | [], s => .next s
  | i :: rest, s =>
    match exec i s with
    | .next t => execAll rest t
    | .fault e => .fault e
    | .refused e => .refused e

/-- The `len` bits stored from `pc` upward, as memory holds them, whether or not they may be read. -/
def State.storedBits (s : State) (len : Nat) : BitString :=
  (List.range len).map fun j => s.mem.read ((s.pc + j) % s.params.memSize)

/-- The instructions that send a bit string through the output stage: each bit is stored at the address register `nBit` holds
and then 1 at the address register `nTrig` holds (spec/95_test_vectors.md S7). -/
def sendBits (nBit nTrig : Nat) (bits : BitString) : List Instr :=
  bits.flatMap fun b => [.memset nBit b, .memset nTrig true]

end Sys2Proof.Machine
end

