-- ==== Sys2Proof/Certificates/Slice0/Obligations.lean ====
section
/-! DEFINITION. The statements for the provers. Each formalises what the spec says an instruction or the machine does. A
clause that rests on one of the spec's own decisions (D1 bit order of a register, D2 bit order of a field, D3 the base of a
jump, D8 the empty output at reset, D10 the refused image, D11 the pc of a halting write, U1 the fault on address 2) is
said so in its docstring. -/

open Sys2Proof Sys2Proof.Machine

/-! ## Reset and load -/

/-- Reset with its arguments (R34, R190): after a launch that fits, `pc` is 3, the registers hold `REG_INIT`, every cell the
image does not cover holds `MEM_INIT`, and the state meets the invariants of R35. The machine runs and both output
sequences are empty: the spec's decision D8. -/
def Obligations.LaunchGivesResetValues : Prop :=
  ∀ (P : Params) (regInit : List BitString) (memInit : Memory) (image : List Byte),
    P.legal → regInitOk P regInit → memInitOk P memInit → imageFits P image →
    ∃ s, launch P regInit memInit image = .next s ∧ s.params = P ∧ s.pc = 3 ∧ s.regs = regInit ∧
      (∀ a, a < 3 ∨ 3 + 8 * image.length ≤ a → s.mem.read a = memInit.read a) ∧
      s.halted = false ∧ s.obuf = [] ∧ s.out = [] ∧ s.wf

/-- Loading (R54): bit `i` of the image, most significant bit of each byte first, is at address `3 + i`; for an image packed
from a bit string, offset `o` of the string is at address `3 + o` and the trailing partial byte is padded with zeros. -/
def Obligations.ImageLoadsMostSignificantBitFirst : Prop :=
  ∀ (P : Params) (regInit : List BitString) (memInit : Memory) (image : List Byte) (s : State),
    launch P regInit memInit image = .next s →
    (∀ i, i < 8 * image.length →
      s.mem.read (3 + i) = ((image.getD (i / 8) 0).toNat >>> (7 - i % 8)).testBit 0) ∧
    ∀ bits : BitString, image = packImage bits →
      8 * image.length < bits.length + 8 ∧ bits.length ≤ 8 * image.length ∧
      ∀ o, o < 8 * image.length → s.mem.read (imageAddr o) = bits.getD o false

/-- The limit of the load (R55, the spec's decision D10): a launch of a legal machine goes through exactly when
`8 · len(IMAGE) ≤ MEMSIZE - 3`, and is refused by name otherwise. -/
def Obligations.OverlongImageIsRefused : Prop :=
  ∀ (P : Params) (regInit : List BitString) (memInit : Memory) (image : List Byte),
    P.legal → regInitOk P regInit → memInitOk P memInit →
    (8 * image.length ≤ P.memSize - 3 → ∃ s, launch P regInit memInit image = .next s) ∧
    (¬ 8 * image.length ≤ P.memSize - 3 → launch P regInit memInit image = .refused .imageTooLong)

/-- The one state `State.reset` is the launch of the reference machine with all-zero `REG_INIT` and `MEM_INIT` and no image;
the zeros are the model's choice (assumption log 3). It meets the invariants of R35. -/
def Obligations.ResetMeetsStateInvariants : Prop :=
  State.reset.wf ∧ launch Params.reference (zeroRegs Params.reference) [] [] = .next State.reset

/-! ## The step -/

/-- A step runs the decoded instruction (R102, R112): where the bits at `pc`, `pc + 1`, … can be read and decode to `i` with
nothing left over, the step of a running machine is `exec i`. -/
def Obligations.StepRunsDecodedInstruction : Prop :=
  ∀ (s : State) (i : Instr) (bits : BitString),
    s.halted = false → decode s.params bits = .ok (i, []) →
    (∀ j (h : j < bits.length), memRead s (s.pc + j) = .ok bits[j]) →
    step s = exec i s

/-- A fetch faults exactly when one of the instruction's own bits stands at address 2 (R42, R102, R198; that the undefined
read faults is the spec's treatment U1); otherwise it gives the instruction the stored bits decode to. -/
def Obligations.FetchFaultsExactlyOnAddressTwo : Prop :=
  ∀ (s : State) (i : Instr) (rest : BitString),
    decode s.params (s.storedBits s.params.maxLength) = .ok (i, rest) →
    (s.fetchAvoidsTrigger (i.length s.params) → fetch s = .ok i) ∧
    (¬ s.fetchAvoidsTrigger (i.length s.params) → fetch s = .error .undefinedRead)

/-- What a step can end in (R101, R160): a halted machine has no step; a running one gives a next state, or faults on an
undefined read of address 2 by its fetch or by the condition read of a `MEMJMP`, and nothing else. -/
def Obligations.StepOutcomesAreThreeOnly : Prop :=
  ∀ s : State, s.wf →
    (s.halted = true → step s = .fault .halted) ∧
    (s.halted = false →
      (∃ t, step s = .next t) ∨
      (step s = .fault .undefinedRead ∧
        (fetch s = .error .undefinedRead ∨
          ∃ n k, fetch s = .ok (.memjmp n k) ∧ regVal s n = some 2)))

/-! ## What each instruction does -/

/-- `MEMSET` (R46, R120) executes for every register and both bits: it stores `b` at `val(n)` and nowhere else, falls through
(where the write does not halt), halts when 1 is written to address 0, and when 1 is written to address 2, whatever was
stored there, appends the bit at address 1 to the output buffer, which at `OUT_WIDTH` bits becomes a code point. The frame
is whole: no register changes. -/
def Obligations.MemsetStoresAndTriggers : Prop :=
  ∀ (s : State) (n a : Nat) (b : Bit), s.wf → n < s.params.regCount → regVal s n = some a →
    ∃ t, exec (.memset n b) s = .next t ∧
      t.params = s.params ∧ t.regs = s.regs ∧
      (¬(a = 0 ∧ b = true) → t.pc = (s.pc + 2 + s.params.r + 1) % s.params.memSize) ∧
      (∀ x, t.mem.read x = if x = a then b else s.mem.read x) ∧
      t.halted = (s.halted || (a == 0 && b)) ∧
      (¬(a = 2 ∧ b = true) → t.obuf = s.obuf ∧ t.out = s.out) ∧
      (a = 2 → b = true →
        (s.obuf.length + 1 < s.params.outWidth →
          t.obuf = s.obuf ++ [s.mem.read 1] ∧ t.out = s.out) ∧
        (s.obuf.length + 1 = s.params.outWidth →
          t.obuf = [] ∧ t.out = s.out ++ [uint (s.obuf ++ [s.mem.read 1])]))

/-- The halting write, `MEMSET` of 1 with `val(n) = 0`, is complete (R120): the bit is stored at address 0, the machine halts, and
nothing else changes but `pc`, which falls through all the same (the spec's decision D11, assumption log 10). -/
def Obligations.HaltingWriteStoresAndMovesPc : Prop :=
  ∀ (s : State) (n : Nat), s.wf → n < s.params.regCount → regVal s n = some 0 →
    exec (.memset n true) s = .next { s with
      mem := s.mem.write 0 true
      halted := true
      pc := (s.pc + 3 + s.params.r) % s.params.memSize }

/-- `MEMJMP` (R121) executes for every pair of registers unless `val(n) = 2`: only `pc` changes, from the jump's last bit by
`val(k)` when the tested bit is 1 and by 1 when it is 0. The base is the spec's decision D3; with `val(n) = 2` the condition
is an undefined read and the step faults (U1). -/
def Obligations.MemjmpAdvancesFromItsLastBit : Prop :=
  ∀ (s : State) (n k a d : Nat), s.wf → n < s.params.regCount → k < s.params.regCount →
    regVal s n = some a → regVal s k = some d →
    (a ≠ 2 → exec (.memjmp n k) s = .next { s with
      pc := (s.pc + 1 + 2 * s.params.r + if s.mem.read a = true then d else 1) % s.params.memSize }) ∧
    (a = 2 → exec (.memjmp n k) s = .fault .undefinedRead)

/-- `REGSET` (R130) executes for every register and bit index: that bit becomes `b`, every other register bit, memory and the
rest stay, `pc` falls through, and the register's value gains or loses the bit's weight `2^(W-1-i)` (the weight is the
spec's decision D1). -/
def Obligations.RegsetWritesOneBit : Prop :=
  ∀ (s : State) (n i v : Nat) (b c : Bit), s.wf → n < s.params.regCount → i < s.params.width →
    regBit s n i = some c → regVal s n = some v →
    ∃ t, exec (.regset n i b) s = .next t ∧
      regBit t n i = some b ∧
      (∀ n' i', ¬(n' = n ∧ i' = i) → regBit t n' i' = regBit s n' i') ∧
      (∃ v', regVal t n = some v' ∧
        v' + c.toNat * 2 ^ (s.params.width - 1 - i) = v + b.toNat * 2 ^ (s.params.width - 1 - i)) ∧
      t.pc = (s.pc + 2 + s.params.r + s.params.m + 1) % s.params.memSize ∧
      t.params = s.params ∧ t.mem = s.mem ∧ t.halted = s.halted ∧ t.obuf = s.obuf ∧ t.out = s.out

/-- `REGJMP` (R131) executes for every register, bit index and displacement register: only `pc` changes, from the jump's last
bit by `val(k)` when the register bit is 1 and by 1 when it is 0. The base is the spec's decision D3. -/
def Obligations.RegjmpAdvancesFromItsLastBit : Prop :=
  ∀ (s : State) (n i k d : Nat) (c : Bit), s.wf → n < s.params.regCount → i < s.params.width →
    k < s.params.regCount → regBit s n i = some c → regVal s k = some d →
    exec (.regjmp n i k) s = .next { s with
      pc := (s.pc + 1 + 2 * s.params.r + s.params.m + if c = true then d else 1) % s.params.memSize }

/-- An instruction no encoding can hold has no meaning: an index outside the register file is refused by name
(spec/93_implementation_defined.md U5: it cannot arise in a running machine). -/
def Obligations.UnencodableIndexIsRefused : Prop :=
  ∀ (s : State) (i : Instr), s.wf → ¬ i.wf s.params → exec i s = .refused .indexOutOfRange

/-! ## Frames -/

/-- Frame of `MEMSET`: no register changes; memory changes at `val(n)` only; `halted` changes only by a 1 to address 0; `obuf` and
`out` change only by a 1 to address 2. -/
def Obligations.MemsetFrame : Prop :=
  ∀ (s t : State) (n a : Nat) (b : Bit), s.wf → exec (.memset n b) s = .next t → regVal s n = some a →
    t.params = s.params ∧ t.regs = s.regs ∧
    (∀ x, x ≠ a → t.mem.read x = s.mem.read x) ∧
    (¬(a = 0 ∧ b = true) → t.halted = s.halted) ∧
    (¬(a = 2 ∧ b = true) → t.obuf = s.obuf ∧ t.out = s.out)

/-- Frame of `REGSET`: every other register, all of memory, `halted` and both output sequences are unchanged, whatever value
the register takes (R130 corner case 3). -/
def Obligations.RegsetFrame : Prop :=
  ∀ (s t : State) (n i : Nat) (b : Bit), exec (.regset n i b) s = .next t →
    t.params = s.params ∧ (∀ n', n' ≠ n → t.regs[n']? = s.regs[n']?) ∧
    (∀ i', i' ≠ i → regBit t n i' = regBit s n i') ∧
    (∀ x, t.mem.read x = s.mem.read x) ∧ t.mem = s.mem ∧
    t.halted = s.halted ∧ t.obuf = s.obuf ∧ t.out = s.out

/-- Frame of the two jumps, `MEMJMP` and `REGJMP` (R109: jumps write nothing, so only the `pc` update changes state). -/
def Obligations.JumpFrame : Prop :=
  ∀ (s t : State) (i : Instr), ((∃ n k, i = .memjmp n k) ∨ ∃ n j k, i = .regjmp n j k) → exec i s = .next t →
    t.params = s.params ∧ t.regs = s.regs ∧ (∀ x, t.mem.read x = s.mem.read x) ∧ t.mem = s.mem ∧
    t.halted = s.halted ∧ t.obuf = s.obuf ∧ t.out = s.out

/-! ## Encoding -/

/-- Round trip (R83) for all four formats, every operand value the encoding admits, every `(r, m)`, and whatever bits
follow. -/
def Obligations.DecodeOfEncodeIsIdentity : Prop :=
  ∀ (P : Params) (i : Instr) (rest : BitString), i.wf P → decode P (encode P i ++ rest) = .ok (i, rest)

/-- The other direction: what decodes was encoded, with every field in its legal range (R76, R78), so no bit of an
instruction is ignored and no two bit strings of one instruction differ. -/
def Obligations.EncodeOfDecodeIsIdentity : Prop :=
  ∀ (P : Params) (i : Instr) (bits rest : BitString), decode P bits = .ok (i, rest) →
    bits = encode P i ++ rest ∧ i.wf P

/-- Decoding is total (R78): any bit pattern as long as the longest format decodes to one of the four cases, the one its two
opcode bits select, and no field is out of range. -/
def Obligations.EveryBitPatternDecodes : Prop :=
  ∀ (P : Params) (bits : BitString), P.maxLength ≤ bits.length →
    ∃ i rest, decode P bits = .ok (i, rest) ∧ i.opcode = bits.take 2 ∧ i.wf P ∧
      bits.length = i.length P + rest.length

/-- The words of the spec's own examples at `(r = 3, m = 4)` (R79, spec/95_test_vectors.md S1); they rest on the spec's
decision D2, most significant bit of a field first. -/
def Obligations.SpecExampleWordsDecode : Prop :=
  decode Params.reference [false, false, true, false, true, false] = .ok (.memset 5 false, []) ∧
  decode Params.reference [false, true, false, false, false, false, false, true] = .ok (.memjmp 0 1, []) ∧
  decode Params.reference [true, false, false, false, true, true, true, true, true, true] = .ok (.regset 1 15 true, []) ∧
  decode Params.reference [true, true, false, true, true, true, false, true, true, false, true, true] =
    .ok (.regjmp 3 11 3, [])

/-- The encoder's check (R82), on operands that may be any integers: `n, k` must be in `[0, 2^r)`, `i` in `[0, 2^m)`, `b` in
`{0, 1}`. If they are, the instruction with just these operands is encoded; otherwise the error is `ValueOutOfRange` with the
value and width of a field that does not fit, and nothing is emitted. -/
def Obligations.EncoderRejectsOutOfRangeFields : Prop :=
  ∀ (P : Params) (t : Template Int),
    ((∀ f ∈ t.fields P, f.fits) → encodeChecked P t = .ok (encode P t.instr) ∧ t.instr.template = t) ∧
    (¬ (∀ f ∈ t.fields P, f.fits) → ∃ f ∈ t.fields P, ¬ (0 ≤ f.value ∧ f.value < 2 ^ f.width) ∧
      encodeChecked P t = .error (.valueOutOfRange f.value f.width)) ∧
    ((∀ f ∈ t.fields P, f.fits) ↔ match t with
      | .memset n b => (0 ≤ n ∧ n < 2 ^ P.r) ∧ (b = 0 ∨ b = 1)
      | .memjmp n k => (0 ≤ n ∧ n < 2 ^ P.r) ∧ (0 ≤ k ∧ k < 2 ^ P.r)
      | .regset n i b => (0 ≤ n ∧ n < 2 ^ P.r) ∧ (0 ≤ i ∧ i < 2 ^ P.m) ∧ (b = 0 ∨ b = 1)
      | .regjmp n i k => (0 ≤ n ∧ n < 2 ^ P.r) ∧ (0 ≤ i ∧ i < 2 ^ P.m) ∧ (0 ≤ k ∧ k < 2 ^ P.r)) ∧
    ∀ i : Instr, i.wf P → encodeChecked P i.template = .ok (encode P i)

/-! ## Whole-machine rules -/

/-- The state invariants of R35 hold at every instruction boundary: every step keeps them, and the instruction it ran has every
index in range. -/
def Obligations.StepKeepsStateInvariants : Prop :=
  ∀ s t : State, s.wf → step s = .next t → t.wf ∧ t.params = s.params ∧ ∃ i, fetch s = .ok i ∧ i.wf s.params

/-- The halt (R44, R163): a step of a running machine halts it exactly when the instruction is a `MEMSET` that writes 1 to
address 0; the bit is stored then, and no later step exists; a 0 written to address 0 is stored and does nothing else. -/
def Obligations.HaltIsExactlyTheWriteOfOneToZero : Prop :=
  ∀ s t : State, s.wf → step s = .next t →
    (t.halted = true ↔ ∃ n, fetch s = .ok (.memset n true) ∧ regVal s n = some 0) ∧
    (t.halted = true → t.mem.read 0 = true ∧ step t = .fault .halted) ∧
    (∀ n, fetch s = .ok (.memset n false) → regVal s n = some 0 →
      t.mem.read 0 = false ∧ (∀ x, x ≠ 0 → t.mem.read x = s.mem.read x) ∧
      t.regs = s.regs ∧ t.halted = false ∧ t.obuf = s.obuf ∧ t.out = s.out)

/-- The output stage moves exactly on a write of 1 to address 2, whatever address 2 held before, and `out` only grows, by at most
one code point a step (R29, R46, R49). -/
def Obligations.OutputMovesOnlyOnTrigger : Prop :=
  ∀ s t : State, s.wf → step s = .next t →
    ((t.obuf ≠ s.obuf ∨ t.out ≠ s.out) ↔ ∃ n, fetch s = .ok (.memset n true) ∧ regVal s n = some 2) ∧
    (t.out = s.out ∨ ∃ c, t.out = s.out ++ [c] ∧ t.obuf = [])

/-- The only instruction that writes a register is `REGSET`, and it writes one bit (R22). -/
def Obligations.OnlyRegsetChangesRegisters : Prop :=
  ∀ s t : State, s.wf → step s = .next t → t.regs ≠ s.regs →
    ∃ n i b, fetch s = .ok (.regset n i b) ∧ regBit s n i = some (!b) ∧ regBit t n i = some b ∧
      ∀ n' i', ¬(n' = n ∧ i' = i) → regBit t n' i' = regBit s n' i'

/-- The only instruction that writes memory is `MEMSET`, and it writes one cell (R43, R51). -/
def Obligations.OnlyMemsetChangesMemory : Prop :=
  ∀ s t : State, s.wf → step s = .next t → t.mem ≠ s.mem →
    ∃ n a b, fetch s = .ok (.memset n b) ∧ regVal s n = some a ∧ s.mem.read a = (!b) ∧ t.mem.read a = b ∧
      ∀ x, x ≠ a → t.mem.read x = s.mem.read x

/-- Self-modification needs no synchronisation (R58, R197): after a `MEMSET` to address `a`, a read of `a` gives the new bit, and
an instruction fetched next whose bit `j` stands at `a` has the new bit there. -/
def Obligations.NextFetchSeesTheStore : Prop :=
  ∀ (s t : State) (n a : Nat) (b : Bit), s.wf → exec (.memset n b) s = .next t → regVal s n = some a → a ≠ 2 →
    memRead t a = .ok b ∧
    ∀ (i : Instr) (j : Nat), fetch t = .ok i → j < i.length t.params → (t.pc + j) % t.params.memSize = a →
      (encode t.params i)[j]? = some b

/-- A backward jump by `d` bits is the forward displacement `MEMSIZE - d` (R106), counted from the jump's last bit (the spec's
decision D3); stated for both jumps, taken. -/
def Obligations.BackwardJumpByModularDisplacement : Prop :=
  ∀ (s : State) (n i k d a : Nat), s.wf → n < s.params.regCount → i < s.params.width → k < s.params.regCount → 0 < d →
    regVal s k = some (s.params.memSize - d) →
    (regBit s n i = some true → d ≤ lastAddr s (2 + 2 * s.params.r + s.params.m) →
      exec (.regjmp n i k) s = .next { s with pc := lastAddr s (2 + 2 * s.params.r + s.params.m) - d }) ∧
    (regVal s n = some a → a ≠ 2 → s.mem.read a = true → d ≤ lastAddr s (2 + 2 * s.params.r) →
      exec (.memjmp n k) s = .next { s with pc := lastAddr s (2 + 2 * s.params.r) - d })

/-- A jump, `REGJMP` or `MEMJMP`, on a bit that stays 1 with displacement `MEMSIZE - (L - 1)` executes itself for ever: the step
leaves the state as it is (R107, on the spec's decision D3). -/
def Obligations.SelfJumpNeverLeaves : Prop :=
  ∀ (s : State) (n i k a : Nat), s.wf → s.halted = false →
    (fetch s = .ok (.regjmp n i k) → regBit s n i = some true →
      1 + 2 * s.params.r + s.params.m ≤ s.params.memSize →
      regVal s k = some (s.params.memSize - (1 + 2 * s.params.r + s.params.m)) → step s = .next s) ∧
    (fetch s = .ok (.memjmp n k) → regVal s n = some a → a ≠ 2 → s.mem.read a = true →
      1 + 2 * s.params.r ≤ s.params.memSize →
      regVal s k = some (s.params.memSize - (1 + 2 * s.params.r)) → step s = .next s)

/-- Emission (R47): from an empty buffer, storing each of `OUT_WIDTH` bits at address 1 and triggering after each emits the one
code point they form, first bit most significant, leaves the buffer empty and halts nothing. The bits may be any. -/
def Obligations.TriggeredBitsFormOneCodePoint : Prop :=
  ∀ (s : State) (nBit nTrig : Nat) (bits : BitString), s.wf → s.obuf = [] → bits.length = s.params.outWidth →
    nBit < s.params.regCount → nTrig < s.params.regCount → regVal s nBit = some 1 → regVal s nTrig = some 2 →
    ∃ t, execAll (sendBits nBit nTrig bits) s = .next t ∧
      t.out = s.out ++ [uint bits] ∧ t.obuf = [] ∧ t.halted = s.halted ∧ t.regs = s.regs ∧
      ∀ x, x ≠ 1 → x ≠ 2 → t.mem.read x = s.mem.read x

/-! ## Composite forms -/

/-- `setFullRegisterFromAny` (R141): exactly `W` sub-instructions, `W · (3 + r + m)` bits, and the register holds the constant
after them regardless of its prior value, nothing else having changed but `pc`. -/
def Obligations.FromAnyFormYieldsConstant : Prop :=
  ∀ (s : State) (n const : Nat), s.wf → n < s.params.regCount → const < 2 ^ s.params.width →
    (expandFromAny s.params n const).length = s.params.width ∧
    setFullRegisterFromAny s.params n const = .ok (encodeAll s.params (expandFromAny s.params n const)) ∧
    (encodeAll s.params (expandFromAny s.params n const)).length =
      s.params.width * (3 + s.params.r + s.params.m) ∧
    ∃ t, execAll (expandFromAny s.params n const) s = .next t ∧ regVal t n = some const ∧
      (∀ n', n' ≠ n → regVal t n' = regVal s n') ∧
      t.mem = s.mem ∧ t.halted = s.halted ∧ t.obuf = s.obuf ∧ t.out = s.out

/-- `setFullRegisterFromKnown` (R142): it emits the sub-instructions of its expansion and no other bits, and executing them
changes exactly the bits where the assumed and the target value differ, so the register holds the constant if the assumption
was true, and otherwise its own bits elsewhere. -/
def Obligations.FromKnownFormChangesDifferingBits : Prop :=
  ∀ (s : State) (n init const : Nat), s.wf → n < s.params.regCount →
    init < 2 ^ s.params.width → const < 2 ^ s.params.width →
    setFullRegisterFromKnown s.params n init const =
      .ok (encodeAll s.params (expandFromKnown s.params n init const)) ∧
    (encodeAll s.params (expandFromKnown s.params n init const)).length =
      ((List.range s.params.width).filter fun i => constBit s.params init i != constBit s.params const i).length *
        (3 + s.params.r + s.params.m) ∧
    ∃ t, execAll (expandFromKnown s.params n init const) s = .next t ∧
      (∀ i, i < s.params.width → regBit t n i =
        if constBit s.params init i = constBit s.params const i then regBit s n i
        else some (constBit s.params const i)) ∧
      (regVal s n = some init → regVal t n = some const) ∧
      (∀ n', n' ≠ n → regVal t n' = regVal s n') ∧
      t.mem = s.mem ∧ t.halted = s.halted ∧ t.obuf = s.obuf ∧ t.out = s.out

/-- The derived form's constant (R143): `(a − b) mod 2^W`, never negative, `2^W - (b - a)` for a backward distance; both
delegations pass it on as the constant; as a displacement it takes a jump whose last bit is at address `last` to the target
(the spec's decision D3). -/
def Obligations.DifferenceConstantIsModular : Prop :=
  ∀ (P : Params) (n init a b : Int),
    differenceConst P a b < 2 ^ P.width ∧
    (2 ^ P.width : Int) ∣ (differenceConst P a b : Int) - (a - b) ∧
    (a < b → b - a ≤ 2 ^ P.width → (differenceConst P a b : Int) = 2 ^ P.width - (b - a)) ∧
    setFullRegisterDifferenceFromAny P n a b = setFullRegisterFromAny P n ((a - b) % 2 ^ P.width) ∧
    setFullRegisterDifferenceFromKnown P n init a b = setFullRegisterFromKnown P n init ((a - b) % 2 ^ P.width) ∧
    ∀ target last : Nat, target < P.memSize →
      (last + displacementTo P target last) % P.memSize = target

/-- Zero-length emission (R147): with `init = const` the known form emits nothing, a label on its line has the offset of the next
emitted bit, which is the first of the lines after it, and executing it moves nothing; the any form is never zero-length,
since `W ≥ 2`. -/
def Obligations.EqualInitEmitsNothing : Prop :=
  ∀ (P : Params) (n const : Nat), P.legal → n < P.regCount → const < 2 ^ P.width →
    setFullRegisterFromKnown P n const const = .ok [] ∧
    (∀ s, execAll (expandFromKnown P n const const) s = .next s) ∧
    (∀ (name : Label) (start number : Nat) (rest : List (List (Piece Int))) (bits : BitString) (table : LabelTable),
      evalLines (emitPieces P) start (number + 1) rest = .ok (bits, table) →
      evalLines (emitPieces P) start number ([.label name, .emit (.setFromKnown n const const)] :: rest) =
        .ok (bits, (name, start) :: table)) ∧
    ∃ bits, setFullRegisterFromAny P n const = .ok bits ∧ bits ≠ []

/-- Range checks of the composite forms (R145), on inputs that may be any integers: they emit exactly when the register index
fits `r` bits and the constants fit `W` bits, every emitted `REGSET` then passing the encoder's own check, and fail otherwise
with `ValueOutOfRange` on an input that does not fit; the result of the subtraction always fits, so a difference form fails
only on its register index or its initial value. -/
def Obligations.CompositeRangeChecks : Prop :=
  ∀ (P : Params) (n init const a b : Int),
    ((0 ≤ n ∧ n < 2 ^ P.r) ∧ (0 ≤ const ∧ const < 2 ^ P.width) →
      (∃ bits, setFullRegisterFromAny P n const = .ok bits) ∧
      ∀ i ∈ expandFromAny P n.toNat const.toNat, encodeChecked P i.template = .ok (encode P i)) ∧
    (¬((0 ≤ n ∧ n < 2 ^ P.r) ∧ (0 ≤ const ∧ const < 2 ^ P.width)) →
      ∃ f ∈ [(⟨n, P.r⟩ : Sys2Proof.Field), ⟨const, P.width⟩], ¬ f.fits ∧
        setFullRegisterFromAny P n const = .error (.valueOutOfRange f.value f.width)) ∧
    ((0 ≤ n ∧ n < 2 ^ P.r) ∧ (0 ≤ init ∧ init < 2 ^ P.width) ∧ (0 ≤ const ∧ const < 2 ^ P.width) →
      (∃ bits, setFullRegisterFromKnown P n init const = .ok bits) ∧
      ∀ i ∈ expandFromKnown P n.toNat init.toNat const.toNat, encodeChecked P i.template = .ok (encode P i)) ∧
    (¬((0 ≤ n ∧ n < 2 ^ P.r) ∧ (0 ≤ init ∧ init < 2 ^ P.width) ∧ (0 ≤ const ∧ const < 2 ^ P.width)) →
      ∃ f ∈ [(⟨n, P.r⟩ : Sys2Proof.Field), ⟨init, P.width⟩, ⟨const, P.width⟩], ¬ f.fits ∧
        setFullRegisterFromKnown P n init const = .error (.valueOutOfRange f.value f.width)) ∧
    (0 ≤ n ∧ n < 2 ^ P.r → ∃ bits, setFullRegisterDifferenceFromAny P n a b = .ok bits) ∧
    (¬(0 ≤ n ∧ n < 2 ^ P.r) → setFullRegisterDifferenceFromAny P n a b = .error (.valueOutOfRange n P.r)) ∧
    ((0 ≤ n ∧ n < 2 ^ P.r) ∧ (0 ≤ init ∧ init < 2 ^ P.width) →
      ∃ bits, setFullRegisterDifferenceFromKnown P n init a b = .ok bits) ∧
    (¬((0 ≤ n ∧ n < 2 ^ P.r) ∧ (0 ≤ init ∧ init < 2 ^ P.width)) →
      ∃ f ∈ [(⟨n, P.r⟩ : Sys2Proof.Field), ⟨init, P.width⟩], ¬ f.fits ∧
        setFullRegisterDifferenceFromKnown P n init a b = .error (.valueOutOfRange f.value f.width))

/-- Size ranges (R146): what a composite form emits has the size its range gives for concrete inputs, `W · (3 + r + m)` for the
any form and the Hamming distance times `3 + r + m` for the known form; with any input unknown, the register index, the initial
value, the constant, or an operand of the subtraction, the range is `[0, W · (3 + r + m)]`. -/
def Obligations.CompositeSizesLieInRange : Prop :=
  ∀ (P : Params) (n init const : Int) (n? init? const? a? b? : Option Int),
    (∀ bits, setFullRegisterFromAny P n const = .ok bits →
      compositeSizeRange P (some n) .any (some const) = (bits.length, bits.length) ∧
      bits.length = P.width * (3 + P.r + P.m)) ∧
    (∀ bits, setFullRegisterFromKnown P n init const = .ok bits →
      compositeSizeRange P (some n) (.known (some init)) (some const) = (bits.length, bits.length) ∧
      bits.length = (((List.range P.width).filter fun i =>
        constBit P init.toNat i != constBit P const.toNat i).length) * (3 + P.r + P.m) ∧
      bits.length ≤ P.width * (3 + P.r + P.m)) ∧
    (n? = none ∨ const? = none →
      compositeSizeRange P n? .any const? = (0, P.width * (3 + P.r + P.m))) ∧
    (n? = none ∨ init? = none ∨ const? = none →
      compositeSizeRange P n? (.known init?) const? = (0, P.width * (3 + P.r + P.m))) ∧
    (n? = none ∨ a? = none ∨ b? = none →
      lineSizeRange P (.setDifferenceFromAny n? a? b?) = (0, P.width * (3 + P.r + P.m))) ∧
    (n? = none ∨ init? = none ∨ a? = none ∨ b? = none →
      lineSizeRange P (.setDifferenceFromKnown n? init? a? b?) = (0, P.width * (3 + P.r + P.m)))

/-- A line with concrete operands has `min = max`, the length of what it emits (R91; that the any form's length is exact is the
spec's resolution C2). -/
def Obligations.ConcreteLineSizeIsExact : Prop :=
  ∀ (P : Params) (line : SourceLine Int) (bits : BitString),
    encodeLine P line = .ok bits → lineSizeRange P (line.map some) = (bits.length, bits.length)

/-! ## Placeholders, labels, programs -/

/-- Placeholders (R88): the declared kinds are tried in order and the first success wins, so kinds after it do not matter, and
text that is of no declared kind is an `InvalidOperand` that names it. Text that begins with `.` is a label reference for `X` and
`L`, text `@.name` a declaration for `L`. The literal syntax is free (assumption log 19); that an empty name makes a label token
malformed (R90), whatever kinds follow, is the model's choice (assumption log 20). -/
def Obligations.FirstMatchingKindWins : Prop :=
  ∀ (before after : List PlaceholderKind) (kind : PlaceholderKind) (token : List Char),
    (∀ k ∈ before, tryKind k token = .ok none) →
    (∀ found, tryKind kind token = .ok (some found) → recognise (before ++ kind :: after) token = .ok found) ∧
    recognise before token = .error (.invalidOperand token) ∧
    (∀ name, name ≠ [] → token = '.' :: name → kind = .X ∨ kind = .L →
      recognise (before ++ kind :: after) token = .ok (.reference name)) ∧
    (∀ name, name ≠ [] → token = '@' :: '.' :: name → kind = .L →
      recognise (before ++ kind :: after) token = .ok (.declares name)) ∧
    (token = ['.'] ∧ (kind = .X ∨ kind = .L) ∨ token = ['@', '.'] ∧ kind = .L →
      recognise (before ++ kind :: after) token = .error (.invalidOperand token))

/-- Label references consume the queue of resolved offsets in encounter order (R88, R89): each is passed the entry its place among
the references gives it, everything else consumes nothing, and with fewer entries than references the error is
`UnresolvedLabelReference` (R90). For `L` references see assumption log 19. -/
def Obligations.ReferencesConsumeOffsetsInOrder : Prop :=
  ∀ (lit : Int → Int) (found : List Captured) (queue : List Int),
    (queue.length < (referencedNames found).length →
      takeOperands lit found queue = .error .unresolvedLabelReference) ∧
    ((referencedNames found).length ≤ queue.length →
      ∃ operands, takeOperands lit found queue = .ok (operands, queue.drop (referencedNames found).length) ∧
        ∀ (front back : List Captured) (name : Label), found = front ++ .reference name :: back →
          ∃ (passed rest : List (Operand Int)) (offset : Int),
            queue[(referencedNames front).length]? = some offset ∧
            takeOperands lit front queue = .ok (passed, queue.drop (referencedNames front).length) ∧
            operands = passed ++ .number offset :: rest)

/-- A line is evaluated with exactly as many offsets as it has references (R90): with fewer it is an `UnresolvedLabelReference`,
with more a slot remains unconsumed, which is fatal; a placeholder no kind matches and a line no template matches are errors
before that. Which of two errors a line reports, the unmatched placeholder before the number of offsets and that before a mismatch
with the encoder or a field out of range, is the model's choice (DESIGN CHOICE, assumption log 19), not R90's; so is that of
several unmatched placeholders the first is named (DESIGN CHOICE, assumption log 24). -/
def Obligations.LineConsumesExactlyItsOffsets : Prop :=
  ∀ (P : Params) (start : Nat) (line : CapturedLine) (offsets : List Nat),
    (∀ parts, recogniseLine line = .ok parts →
      (offsets.length < (referencedNames (parts.flatMap Prod.snd)).length →
        evalLine P start line offsets = .error .unresolvedLabelReference) ∧
      ((referencedNames (parts.flatMap Prod.snd)).length < offsets.length →
        evalLine P start line offsets = .error .unconsumedOffsets)) ∧
    (∀ parts before after p, line = some parts → parts.flatMap LinePart.placeholders = before ++ p :: after →
      (∃ found, recogniseAll before = .ok found) → (∀ k ∈ p.kinds, tryKind k p.token = .ok none) →
      evalLine P start line offsets = .error (.invalidOperand p.token)) ∧
    evalLine P start none offsets = .error .noMatchingPattern

/-- A declaration resolves to the bit offset in the image at which it occurs (R87): the bits of the lines before it and of the
sub-encodings before it on its own line. -/
def Obligations.LabelsResolveToImageOffsets : Prop :=
  ∀ (P : Params) (before after : List (List (Piece Int))) (front back : List (Piece Int)) (name : Label)
    (bits : BitString) (table : LabelTable),
    emitProgram P (before ++ (front ++ .label name :: back) :: after) = .ok (bits, table) →
    ∃ (bits₁ bits₂ bits₃ : BitString) (table₁ table₂ table₃ : LabelTable),
      emitProgram P before = .ok (bits₁, table₁) ∧ emitPieces P bits₁.length front = .ok (bits₂, table₂) ∧
      bits = bits₁ ++ bits₂ ++ bits₃ ∧ table = table₁ ++ table₂ ++ (name, (bits₁ ++ bits₂).length) :: table₃

/-- The labels of a captured line: those a plain line declares have the line's own starting bit offset (R87), and those a
stretch after its sub-encoding declares have an interior offset, one past the last bit emitted. R87 allows such an offset and
the source defines no line that has one (N14): that a stretch of declarations marks it is the model's choice (DESIGN CHOICE,
assumption log 21). -/
def Obligations.LineLabelsAreStartOrInterior : Prop :=
  ∀ (P : Params) (start : Nat) (form : LineForm) (own past : List Placeholder) (found found' : List Captured)
    (offsets : List Nat) (bits : BitString) (table : LabelTable),
    recogniseAll own = .ok found → recogniseAll past = .ok found' →
    (evalLine P start (some [⟨some form, own⟩]) offsets = .ok (bits, table) →
      table = (declaredNames found).map fun name => (name, start)) ∧
    (evalLine P start (some [⟨some form, own⟩, ⟨none, past⟩]) offsets = .ok (bits, table) →
      table = ((declaredNames found).map fun name => (name, start)) ++
        (declaredNames found').map fun name => (name, start + bits.length))

/-- References of a resolved program (R87): with a label table that is the program's own, every reference of every line is
passed the offset the table gives its name, which is one its declaration resolves to in the evaluated program. That a name
declared twice gives the first of its entries is the model's choice (DESIGN CHOICE, assumption log 21): the spec does not
say. -/
def Obligations.ResolvedReferencesReadDeclarations : Prop :=
  ∀ (P : Params) (lines : List CapturedLine) (table : LabelTable), resolvesProgram P lines table →
    ∀ line ∈ lines, ∃ parts, recogniseLine line = .ok parts ∧
      (referencedNames (parts.flatMap Prod.snd)).map (fun name => table.lookup name) =
        (offsetsFor table line).map some ∧
      ∀ name ∈ referencedNames (parts.flatMap Prod.snd), ∃ offset, (name, offset) ∈ table

/-- Errors abort the assembly of the whole program with the offending line identified (R90, R88): the program's failure is the
first line that fails, with that line's error, and no later line matters. R90 says only that the line is identified: that it is
by its position, counted from 0, is the model's choice (DESIGN CHOICE, assumption log 19), and that of several failing lines it is
the first is inferred (DEDUCED, assumption log 24). -/
def Obligations.FailureNamesTheOffendingLine : Prop :=
  ∀ (P : Params) (lines : List (CapturedLine × List Nat)) (failure : AsmFailure),
    (assemble P lines = .error failure ↔
      ∃ (before after : List (CapturedLine × List Nat)) (line : CapturedLine) (offsets : List Nat)
        (bits : BitString) (table : LabelTable),
        lines = before ++ (line, offsets) :: after ∧ failure.line = before.length ∧
        evalProgram P before = .ok (bits, table) ∧
        evalLine P bits.length line offsets = .error failure.error)

/-- Analysis against evaluation (R89, R91): what a line emits lies in the range analysis reports, both name the same declared
labels, evaluation took one offset for each referenced label, and a line without label references has `min = max`. -/
def Obligations.AnalysisBoundsEvaluation : Prop :=
  ∀ (P : Params) (start : Nat) (line : CapturedLine) (offsets : List Nat) (bits : BitString) (table : LabelTable),
    evalLine P start line offsets = .ok (bits, table) →
    ∃ a, analyseLine P line = .ok a ∧ a.minBits ≤ bits.length ∧ bits.length ≤ a.maxBits ∧
      a.declared = table.map Prod.fst ∧ a.referenced.length = offsets.length ∧
      (a.referenced = [] → a.minBits = bits.length ∧ a.maxBits = bits.length)
end

