-- ==== Sys2Proof/Laws/Bits.lean ====
section
/-! SUPPORT. The laws of the bit-to-number conversions `uint` and `bitsOf` (spec/00_scope.md R7). -/

namespace Sys2Proof

@[simp] theorem uint_nil : uint [] = 0 := rfl

theorem uint_cons (b : Bit) (bs : BitString) : uint (b :: bs) = b.toNat * 2 ^ bs.length + uint bs := rfl

@[simp] theorem bitsOf_zero (v : Nat) : bitsOf 0 v = [] := rfl

theorem bitsOf_succ (w v : Nat) : bitsOf (w + 1) v = v.testBit w :: bitsOf w v := rfl

@[simp] theorem bitsOf_length (w v : Nat) : (bitsOf w v).length = w := by
  induction w with
  | zero => rfl
  | succ w ih => simp [bitsOf_succ, ih]

/-- A bit string of `w` bits stands for a number below `2^w`. -/
theorem uint_lt (bs : BitString) : uint bs < 2 ^ bs.length := by
  induction bs with
  | nil => simp
  | cons b bs ih =>
    have hb : b.toNat ≤ 1 := by cases b <;> decide
    have h : b.toNat * 2 ^ bs.length ≤ 2 ^ bs.length := by nlinarith
    rw [uint_cons, List.length_cons, pow_succ]
    omega

theorem testBit_toNat_mod (v w : Nat) : (v.testBit w).toNat * 2 ^ w + v % 2 ^ w = v % 2 ^ (w + 1) := by
  rw [Nat.toNat_testBit, Nat.mod_pow_succ]
  ring

/-- Writing a number in `w` bits and reading it back keeps its low `w` bits. -/
theorem uint_bitsOf_mod (w v : Nat) : uint (bitsOf w v) = v % 2 ^ w := by
  induction w with
  | zero => simp [Nat.mod_one]
  | succ w ih => rw [bitsOf_succ, uint_cons, bitsOf_length, ih, testBit_toNat_mod]

/-- A number that fits its field is read back. -/
theorem uint_bitsOf {w v : Nat} (h : v < 2 ^ w) : uint (bitsOf w v) = v := by
  rw [uint_bitsOf_mod, Nat.mod_eq_of_lt h]

/-- `bitsOf` sees only the low bits of its number. -/
theorem bitsOf_congr {u v : Nat} : ∀ {w : Nat}, (∀ k < w, u.testBit k = v.testBit k) → bitsOf w u = bitsOf w v
  | 0, _ => rfl
  | w + 1, h => by
    rw [bitsOf_succ, bitsOf_succ, h w (by omega), bitsOf_congr fun k hk => h k (by omega)]

/-- The two conversions are inverse on bit strings. -/
theorem bitsOf_uint (bs : BitString) : bitsOf bs.length (uint bs) = bs := by
  induction bs with
  | nil => rfl
  | cons b bs ih =>
    have hlt := uint_lt bs
    have key : ∀ j, (uint (b :: bs)).testBit j =
        if j < bs.length then (uint bs).testBit j else b.toNat.testBit (j - bs.length) := by
      intro j
      rw [uint_cons, Nat.mul_comm, Nat.testBit_two_pow_mul_add _ hlt]
    rw [List.length_cons, bitsOf_succ, key, bitsOf_congr (v := uint bs) (fun k hk => by rw [key, if_pos hk]), ih]
    cases b <;> simp

/-- Two bit strings of one length that stand for one number are equal. -/
theorem uint_injective {as bs : BitString} (hlen : as.length = bs.length) (h : uint as = uint bs) : as = bs := by
  rw [← bitsOf_uint as, ← bitsOf_uint bs, hlen, h]

theorem uint_append (as bs : BitString) : uint (as ++ bs) = uint as * 2 ^ bs.length + uint bs := by
  induction as with
  | nil => simp
  | cons a as ih => rw [List.cons_append, uint_cons, ih, uint_cons, List.length_append, pow_add]; ring

/-- Bit `i` of `bits_w(v)` has weight `2^(w-1-i)`. -/
theorem bitsOf_getElem? (w v i : Nat) : (bitsOf w v)[i]? = if i < w then some (v.testBit (w - 1 - i)) else none := by
  induction w generalizing i with
  | zero => simp
  | succ w ih =>
    cases i with
    | zero => simp [bitsOf_succ]
    | succ i =>
      rw [bitsOf_succ, List.getElem?_cons_succ, ih]
      by_cases h : i < w
      · rw [if_pos h, if_pos (by omega)]; congr 2; omega
      · rw [if_neg h, if_neg (by omega)]

/-- Setting a bit that was 0 adds its weight. -/
theorem uint_set (bs : BitString) (i : Nat) (b c : Bit) (h : bs[i]? = some c) :
    uint (bs.set i b) + c.toNat * 2 ^ (bs.length - 1 - i) = uint bs + b.toNat * 2 ^ (bs.length - 1 - i) := by
  induction bs generalizing i with
  | nil => simp at h
  | cons a bs ih =>
    cases i with
    | zero =>
      obtain rfl : a = c := by simpa using h
      simp [uint_cons]; omega
    | succ i =>
      have hi := ih i (by simpa using h)
      have hlen : (a :: bs).length - 1 - (i + 1) = bs.length - 1 - i := by simp; omega
      rw [hlen, List.set_cons_succ, uint_cons, uint_cons, List.length_set]
      omega

end Sys2Proof
end

