-- ==== Sys2Proof/Laws/Decode.lean ====
section
/-! SUPPORT. What reading bits from a source can do, and that the decoder reads the instruction's own bits and no other. -/

namespace Sys2Proof

variable {ε : Type}

/-- Reading `w` bits succeeds exactly when each of them can be read, and then gives them in order. -/
theorem readBits_eq_ok {rd : Nat → Except ε Bit} {off w : Nat} {bits : BitString} :
    readBits rd off w = .ok bits ↔ bits.length = w ∧ ∀ j (h : j < bits.length), rd (off + j) = .ok bits[j] := by
  induction w generalizing off bits with
  | zero =>
    constructor
    · intro h
      obtain rfl : [] = bits := by simpa [readBits] using h
      simp
    · rintro ⟨h, -⟩
      obtain rfl := List.length_eq_zero_iff.mp h
      rfl
  | succ w ih =>
    constructor
    · intro h
      unfold readBits at h
      cases hb : rd off with
      | error e => simp [hb, bind, Except.bind] at h
      | ok b =>
        cases hbs : readBits rd (off + 1) w with
        | error e => simp [hb, hbs, bind, Except.bind] at h
        | ok bs =>
          obtain rfl : b :: bs = bits := by simpa [hb, hbs, bind, Except.bind] using h
          obtain ⟨hl, hr⟩ := ih.mp hbs
          refine ⟨by simp [hl], fun j hj => ?_⟩
          cases j with
          | zero => simpa using hb
          | succ j =>
            have := hr j (by simpa using hj)
            simpa [Nat.add_assoc, Nat.add_comm 1] using this
    · rintro ⟨hl, hr⟩
      cases bits with
      | nil => simp at hl
      | cons b bs =>
        have h0 : rd off = .ok b := hr 0 (by simp)
        have hbs : readBits rd (off + 1) w = .ok bs := ih.mpr ⟨by simpa using hl, fun j hj => by
          have := hr (j + 1) (by simpa using hj)
          simpa [Nat.add_assoc, Nat.add_comm 1] using this⟩
        simp [readBits, h0, hbs, bind, Except.bind]

/-- A source of bits known over an interval reads that interval. -/
theorem readBits_of_known {rd : Nat → Except ε Bit} {off w : Nat} (f : Nat → Bit)
    (h : ∀ j < w, rd (off + j) = .ok (f j)) : readBits rd off w = .ok ((List.range w).map f) :=
  readBits_eq_ok.mpr ⟨by simp, fun j hj => by simpa using h j (by simpa using hj)⟩

/-- A field read succeeds exactly when its bits can be read, and is then the number they stand for. -/
theorem readField_eq_ok {rd : Nat → Except ε Bit} {off w v : Nat} :
    readField rd off w = .ok v ↔ ∃ bits, readBits rd off w = .ok bits ∧ uint bits = v := by
  unfold readField
  cases readBits rd off w <;> simp [bind, Except.bind]

/-- A field that was read fits its width. -/
theorem readField_lt {rd : Nat → Except ε Bit} {off w v : Nat} (h : readField rd off w = .ok v) : v < 2 ^ w := by
  obtain ⟨bits, hb, rfl⟩ := readField_eq_ok.mp h
  exact (readBits_eq_ok.mp hb).1 ▸ uint_lt bits

/-- Everything a successful decode can be: the two opcode bits select the format, and each field was read at the offset
the format gives it (R72 to R75, R102). -/
theorem decodeFrom_cases {P : Params} {rd : Nat → Except ε Bit} {i : Instr} (h : decodeFrom P rd = .ok i) :
    (∃ n b, i = .memset n b ∧ rd 0 = .ok false ∧ rd 1 = .ok false ∧ readField rd 2 P.r = .ok n ∧
      rd (2 + P.r) = .ok b) ∨
    (∃ n k, i = .memjmp n k ∧ rd 0 = .ok false ∧ rd 1 = .ok true ∧ readField rd 2 P.r = .ok n ∧
      readField rd (2 + P.r) P.r = .ok k) ∨
    (∃ n j b, i = .regset n j b ∧ rd 0 = .ok true ∧ rd 1 = .ok false ∧ readField rd 2 P.r = .ok n ∧
      readField rd (2 + P.r) P.m = .ok j ∧ rd (2 + P.r + P.m) = .ok b) ∨
    (∃ n j k, i = .regjmp n j k ∧ rd 0 = .ok true ∧ rd 1 = .ok true ∧ readField rd 2 P.r = .ok n ∧
      readField rd (2 + P.r) P.m = .ok j ∧ readField rd (2 + P.r + P.m) P.r = .ok k) := by
  unfold decodeFrom at h
  cases hd : rd 0 with
  | error e => simp [hd, bind, Except.bind] at h
  | ok d =>
  cases ho : rd 1 with
  | error e => simp [hd, ho, bind, Except.bind] at h
  | ok o =>
  cases hn : readField rd 2 P.r with
  | error e => simp [hd, ho, hn, bind, Except.bind] at h
  | ok n =>
  cases d <;> cases o <;> simp only [hd, ho, hn, bind, Except.bind] at h
  · cases hb : rd (2 + P.r) with
    | error e => simp [hb] at h
    | ok b => exact .inl ⟨n, b, by simpa [hb] using h.symm, rfl, rfl, rfl, rfl⟩
  · cases hk : readField rd (2 + P.r) P.r with
    | error e => simp [hk] at h
    | ok k => exact .inr (.inl ⟨n, k, by simpa [hk] using h.symm, rfl, rfl, rfl, rfl⟩)
  · cases hj : readField rd (2 + P.r) P.m with
    | error e => simp [hj] at h
    | ok j =>
    cases hb : rd (2 + P.r + P.m) with
    | error e => simp [hj, hb] at h
    | ok b => exact .inr (.inr (.inl ⟨n, j, b, by simpa [hj, hb] using h.symm, rfl, rfl, rfl, rfl, rfl⟩))
  · cases hj : readField rd (2 + P.r) P.m with
    | error e => simp [hj] at h
    | ok j =>
    cases hk : readField rd (2 + P.r + P.m) P.r with
    | error e => simp [hj, hk] at h
    | ok k => exact .inr (.inr (.inr ⟨n, j, k, by simpa [hj, hk] using h.symm, rfl, rfl, rfl, rfl, rfl⟩))

/-! ## The decoder reads the instruction's own bits only -/

/-- A field read goes over from one source of bits to another that agrees on the field. -/
theorem readField_transfer {ε' : Type} {rd : Nat → Except ε Bit} {rd' : Nat → Except ε' Bit} {off w v : Nat}
    (h : readField rd off w = .ok v)
    (ht : ∀ j b, off ≤ j → j < off + w → rd j = .ok b → rd' j = .ok b) : readField rd' off w = .ok v := by
  obtain ⟨bits, hb, hv⟩ := readField_eq_ok.mp h
  obtain ⟨hl, hr⟩ := readBits_eq_ok.mp hb
  exact readField_eq_ok.mpr
    ⟨bits, readBits_eq_ok.mpr ⟨hl, fun j hj => ht _ _ (by omega) (by omega) (hr j hj)⟩, hv⟩

/-- A decode goes over from one source of bits to another that agrees on the bits of the instruction decoded. -/
theorem decodeFrom_transfer {ε' : Type} {P : Params} {rd : Nat → Except ε Bit} {rd' : Nat → Except ε' Bit} {i : Instr}
    (h : decodeFrom P rd = .ok i) (ht : ∀ j b, j < i.length P → rd j = .ok b → rd' j = .ok b) :
    decodeFrom P rd' = .ok i := by
  rcases decodeFrom_cases h with ⟨n, b, rfl, hd, ho, hn, hb⟩ | ⟨n, k, rfl, hd, ho, hn, hk⟩ |
    ⟨n, ix, b, rfl, hd, ho, hn, hi, hb⟩ | ⟨n, ix, k, rfl, hd, ho, hn, hi, hk⟩ <;>
  simp only [Instr.length] at ht <;>
  replace hd := ht _ _ (by omega) hd <;>
  replace ho := ht _ _ (by omega) ho <;>
  replace hn := readField_transfer hn fun j b _ _ h => ht j b (by omega) h
  · simp [decodeFrom, hd, ho, hn, ht _ _ (by omega) hb, bind, Except.bind]
  · replace hk := readField_transfer hk fun j b _ _ h => ht j b (by omega) h
    simp [decodeFrom, hd, ho, hn, hk, bind, Except.bind]
  · replace hi := readField_transfer hi fun j b _ _ h => ht j b (by omega) h
    simp [decodeFrom, hd, ho, hn, hi, ht _ _ (by omega) hb, bind, Except.bind]
  · replace hi := readField_transfer hi fun j b _ _ h => ht j b (by omega) h
    replace hk := readField_transfer hk fun j b _ _ h => ht j b (by omega) h
    simp [decodeFrom, hd, ho, hn, hi, hk, bind, Except.bind]

/-- A bit string as a source of bits. -/
theorem bitAt_eq_ok {bits : BitString} {j : Nat} {b : Bit} : bitAt bits j = .ok b ↔ bits[j]? = some b := by
  unfold bitAt
  cases bits[j]? <;> simp

/-- Everything a successful `decode` says. -/
theorem decode_eq_ok {P : Params} {bits rest : BitString} {i : Instr} :
    decode P bits = .ok (i, rest) ↔ decodeFrom P (bitAt bits) = .ok i ∧ rest = bits.drop (i.length P) := by
  unfold decode
  cases h : decodeFrom P (bitAt bits) with
  | error e => simp [bind, Except.bind]
  | ok k =>
    simp only [bind, Except.bind, Except.ok.injEq, Prod.mk.injEq]
    constructor <;> (rintro ⟨rfl, rfl⟩; simp)

theorem Instr.length_pos (P : Params) (i : Instr) : 0 < i.length P := by
  cases i <;> simp only [Instr.length] <;> omega

theorem Instr.length_le_max (P : Params) (i : Instr) : i.length P ≤ P.maxLength := by
  cases i <;> simp only [Instr.length, Params.maxLength] <;> omega

/-- The check on a template's operands as the ranges of R82. -/
theorem Template.fields_fit_iff (P : Params) (t : Template Int) : (∀ f ∈ t.fields P, f.fits) ↔ match t with
    | .memset n b => (0 ≤ n ∧ n < 2 ^ P.r) ∧ (b = 0 ∨ b = 1)
    | .memjmp n k => (0 ≤ n ∧ n < 2 ^ P.r) ∧ (0 ≤ k ∧ k < 2 ^ P.r)
    | .regset n i b => (0 ≤ n ∧ n < 2 ^ P.r) ∧ (0 ≤ i ∧ i < 2 ^ P.m) ∧ (b = 0 ∨ b = 1)
    | .regjmp n i k => (0 ≤ n ∧ n < 2 ^ P.r) ∧ (0 ≤ i ∧ i < 2 ^ P.m) ∧ (0 ≤ k ∧ k < 2 ^ P.r) := by
  have bit : ∀ b : Int, 0 ≤ b ∧ b ≤ 1 ↔ b = 0 ∨ b = 1 := by omega
  cases t <;> simp [Template.fields, Field.fits, bit]

/-- Well-formedness as the ranges of the indices (R76): a data bit always fits. -/
theorem Instr.wf_iff (P : Params) (i : Instr) : i.wf P ↔ match i with
    | .memset n _ => n < P.regCount
    | .memjmp n k => n < P.regCount ∧ k < P.regCount
    | .regset n ix _ => n < P.regCount ∧ ix < P.width
    | .regjmp n ix k => n < P.regCount ∧ ix < P.width ∧ k < P.regCount := by
  have bit : ∀ b : Bit, (b.toNat : Int) = 0 ∨ (b.toNat : Int) = 1 := by intro b; cases b <;> simp
  rw [Instr.wf, Instr.fields, Template.fields_fit_iff]
  cases i <;> simp only [Instr.template, bit, and_true, Params.regCount, Params.width] <;> norm_cast <;> simp

/-- An instruction's operands as numbers give the instruction back. -/
@[simp] theorem Instr.instr_template (i : Instr) : i.template.instr = i := by
  rcases i with ⟨n, b⟩ | ⟨n, k⟩ | ⟨n, ix, b⟩ | ⟨n, ix, k⟩ <;> try cases b
  all_goals rfl

/-- Operands that fit lose nothing in the instruction (R82: never silently truncated). -/
theorem Template.template_instr {P : Params} {t : Template Int} (h : ∀ f ∈ t.fields P, f.fits) : t.instr.template = t := by
  rw [Template.fields_fit_iff] at h
  rcases t with ⟨n, b⟩ | ⟨n, k⟩ | ⟨n, ix, b⟩ | ⟨n, ix, k⟩ <;>
    simp only [Template.instr, Instr.template, Template.memset.injEq, Template.memjmp.injEq, Template.regset.injEq,
      Template.regjmp.injEq] at h ⊢
  · obtain ⟨hn, rfl | rfl⟩ := h <;> exact ⟨by omega, rfl⟩
  · omega
  · obtain ⟨hn, hi, rfl | rfl⟩ := h <;> exact ⟨by omega, by omega, rfl⟩
  · omega

/-! ## The encoder's check -/

/-- Fields that fit pass. -/
theorem checkFields_eq_ok {fs : List Field} (h : ∀ f ∈ fs, f.fits) : checkFields fs = .ok () := by
  induction fs with
  | nil => rfl
  | cons f fs ih =>
    have hf : f.fits := h f (by simp)
    simp only [checkFields, checkField, if_pos hf, bind, Except.bind]
    exact ih fun g hg => h g (by simp [hg])

/-- Otherwise the error names a field that does not fit. -/
theorem checkFields_eq_error {fs : List Field} (h : ¬ ∀ f ∈ fs, f.fits) :
    ∃ f ∈ fs, ¬ f.fits ∧ checkFields fs = .error (.valueOutOfRange f.value f.width) := by
  induction fs with
  | nil => simp at h
  | cons f fs ih =>
    by_cases hf : f.fits
    · obtain ⟨g, hg, h1, h2⟩ := ih fun h' => h fun g hg => by
        rcases List.mem_cons.mp hg with rfl | hg
        · exact hf
        · exact h' g hg
      exact ⟨g, by simp [hg], h1, by simp only [checkFields, checkField, if_pos hf, bind, Except.bind]; exact h2⟩
    · exact ⟨f, by simp, hf, by simp only [checkFields, checkField, if_neg hf, bind, Except.bind]⟩

/-- What a checked encoding answers when it answers bits: every field fitted. -/
theorem checked_eq_ok {fs : List Field} {bits out : BitString}
    (h : (do checkFields fs; .ok bits : Except AsmError BitString) = .ok out) : (∀ f ∈ fs, f.fits) ∧ out = bits := by
  by_cases hf : ∀ f ∈ fs, f.fits
  · rw [checkFields_eq_ok hf] at h
    exact ⟨hf, by simpa [bind, Except.bind] using h.symm⟩
  · obtain ⟨f, -, -, he⟩ := checkFields_eq_error hf
    rw [he] at h
    simp [bind, Except.bind] at h

end Sys2Proof
end

