-- ==== Sys2Proof/Laws/Memory.lean ====
section
/-! SUPPORT. The laws of memory: a read after a write, and that every memory operation keeps the canonical form. -/

namespace Sys2Proof.Machine

@[simp] theorem Memory.read_nil (a : Nat) : Memory.read [] a = Memory.unlisted := rfl

theorem Memory.read_cons (x : Nat) (v : Bit) (rest : Memory) (a : Nat) :
    Memory.read ((x, v) :: rest) a = if x = a then v else Memory.read rest a := rfl

/-- An address below every listed one is unlisted. -/
theorem Memory.read_of_lt {mem : Memory} {a : Nat} (h : ∀ c ∈ mem, a < c.1) : mem.read a = Memory.unlisted := by
  induction mem with
  | nil => rfl
  | cons c rest ih =>
    obtain ⟨x, v⟩ := c
    have hx : a < x := h (x, v) (by simp)
    rw [Memory.read_cons, if_neg (by omega), ih fun c hc => h c (by simp [hc])]

/-- Everything `Memory.cons` reads as, where the rest lists only higher addresses. -/
theorem Memory.read_cons_cell {rest : Memory} {a : Nat} (b : Bit) (h : ∀ c ∈ rest, a < c.1) (x : Nat) :
    (Memory.cons a b rest).read x = if x = a then b else rest.read x := by
  unfold Memory.cons
  split
  · next hb =>
    split
    · next hx => subst hx; rw [Memory.read_of_lt h, hb]
    · rfl
  · rw [Memory.read_cons]
    by_cases hx : x = a
    · rw [if_pos hx.symm, if_pos hx]
    · rw [if_neg fun h => hx h.symm, if_neg hx]

/-- A read after a write, at any two addresses. -/
theorem Memory.read_write {mem : Memory} (h : mem.Pairwise fun c d => c.1 < d.1) (a : Nat) (b : Bit) (x : Nat) :
    (mem.write a b).read x = if x = a then b else mem.read x := by
  induction mem with
  | nil => exact Memory.read_cons_cell b (by simp) x
  | cons c rest ih =>
    obtain ⟨y, v⟩ := c
    obtain ⟨hlt, hrest⟩ := List.pairwise_cons.mp h
    unfold Memory.write
    split
    · next hay =>
      refine Memory.read_cons_cell b (fun c hc => ?_) x
      rcases List.mem_cons.mp hc with rfl | hc
      · exact hay
      · exact hay.trans (hlt c hc)
    · split
      · next hay =>
        subst hay
        rw [Memory.read_cons_cell b hlt, Memory.read_cons]
        by_cases hx : x = a
        · simp [hx]
        · rw [if_neg hx, if_neg hx, if_neg fun h => hx h.symm]
      · rw [Memory.read_cons, Memory.read_cons, ih hrest]
        by_cases hx : y = x
        · subst hx; simp; omega
        · simp [hx]

/-- A cell of a written memory is the written one or was there before. -/
theorem Memory.mem_write {mem : Memory} {a : Nat} {b : Bit} {c : Nat × Bit} (h : c ∈ mem.write a b) :
    (c = (a, b) ∧ b ≠ Memory.unlisted) ∨ c ∈ mem := by
  have key : ∀ rest : Memory, c ∈ Memory.cons a b rest → (c = (a, b) ∧ b ≠ Memory.unlisted) ∨ c ∈ rest := by
    intro rest hc
    unfold Memory.cons at hc
    split at hc
    · exact .inr hc
    · next hb =>
      rcases List.mem_cons.mp hc with rfl | hc
      · exact .inl ⟨rfl, hb⟩
      · exact .inr hc
  induction mem with
  | nil => exact key [] h
  | cons d rest ih =>
    obtain ⟨y, v⟩ := d
    unfold Memory.write at h
    split at h
    · exact key _ h
    · split at h
      · exact (key _ h).imp_right (List.mem_cons_of_mem _)
      · rcases List.mem_cons.mp h with rfl | h
        · exact .inr (by simp)
        · exact (ih h).imp_right (List.mem_cons_of_mem _)

/-- A write keeps the addresses strictly rising. -/
theorem Memory.pairwise_write {mem : Memory} (h : mem.Pairwise fun c d => c.1 < d.1) (a : Nat) (b : Bit) :
    (mem.write a b).Pairwise fun c d => c.1 < d.1 := by
  have key : ∀ rest : Memory, rest.Pairwise (fun c d => c.1 < d.1) → (∀ c ∈ rest, a < c.1) →
      (Memory.cons a b rest).Pairwise fun c d => c.1 < d.1 := by
    intro rest hp hlt
    unfold Memory.cons
    split
    · exact hp
    · exact List.pairwise_cons.mpr ⟨fun c hc => hlt c hc, hp⟩
  induction mem with
  | nil => exact key [] h (by simp)
  | cons d rest ih =>
    obtain ⟨y, v⟩ := d
    obtain ⟨hlt, hrest⟩ := List.pairwise_cons.mp h
    unfold Memory.write
    split
    · next hay =>
      refine key _ h fun c hc => ?_
      rcases List.mem_cons.mp hc with rfl | hc
      · exact hay
      · exact hay.trans (hlt c hc)
    · split
      · next hay => exact key _ hrest (by subst hay; exact hlt)
      · refine List.pairwise_cons.mpr ⟨fun c hc => ?_, ih hrest⟩
        rcases Memory.mem_write hc with ⟨rfl, -⟩ | hc
        · simp only; omega
        · exact hlt c hc

/-- A write keeps the canonical form. -/
theorem Memory.wf_write {mem : Memory} (h : mem.wf) (a : Nat) (b : Bit) : (mem.write a b).wf := by
  refine ⟨Memory.pairwise_write h.1 a b, fun c hc => ?_⟩
  rcases Memory.mem_write hc with ⟨rfl, hb⟩ | hc
  · exact hb
  · exact h.2 c hc

/-- A write inside the address space lists no cell outside it. -/
theorem Memory.bounded_write {mem : Memory} {size : Nat} (h : ∀ c ∈ mem, c.1 < size) {a : Nat} (ha : a < size)
    (b : Bit) : ∀ c ∈ mem.write a b, c.1 < size := by
  intro c hc
  rcases Memory.mem_write hc with ⟨rfl, -⟩ | hc
  · exact ha
  · exact h c hc

/-- Storing a bit string keeps the canonical form and the address space. -/
theorem Memory.wf_storeBits {size : Nat} (hs : 0 < size) (bits : BitString) {mem : Memory} (a : Nat) (h : mem.wf)
    (hb : ∀ c ∈ mem, c.1 < size) :
    (mem.storeBits size a bits).wf ∧ ∀ c ∈ mem.storeBits size a bits, c.1 < size := by
  induction bits generalizing mem a with
  | nil => exact ⟨h, hb⟩
  | cons b bs ih =>
    exact ih (a + 1) (Memory.wf_write h _ _) (Memory.bounded_write hb (Nat.mod_lt _ hs) _)

/-- What a stored bit string reads as, where it does not wrap. -/
theorem Memory.read_storeBits {size : Nat} (bits : BitString) {mem : Memory} {a : Nat}
    (h : mem.Pairwise fun c d => c.1 < d.1) (hfit : a + bits.length ≤ size) (x : Nat) :
    (mem.storeBits size a bits).read x = if a ≤ x then (bits[x - a]?).getD (mem.read x) else mem.read x := by
  induction bits generalizing mem a with
  | nil => simp [Memory.storeBits]
  | cons b bs ih =>
    have hfit' : a + 1 + bs.length ≤ size := by simp at hfit; omega
    have ha : a % size = a := Nat.mod_eq_of_lt (by simp at hfit; omega)
    rw [Memory.storeBits, ha, ih (Memory.pairwise_write h a b) hfit', Memory.read_write h]
    rcases Nat.lt_trichotomy x a with hx | hx | hx
    · rw [if_neg (by omega), if_neg (by omega), if_neg (by omega)]
    · subst hx; simp
    · obtain ⟨k, rfl⟩ : ∃ k, x = a + 1 + k := ⟨x - (a + 1), by omega⟩
      have h1 : a + 1 + k - (a + 1) = k := by omega
      have h2 : a + 1 + k - a = k + 1 := by omega
      have h3 : a + 1 + k ≠ a := by omega
      rw [if_pos (show a + 1 ≤ a + 1 + k by omega), if_pos (show a ≤ a + 1 + k by omega), if_neg h3, h1, h2,
        List.getElem?_cons_succ]

/-- A memory in canonical form is determined by what its addresses read as. -/
theorem Memory.ext_read {m₁ m₂ : Memory} (h₁ : m₁.wf) (h₂ : m₂.wf) (h : ∀ a, m₁.read a = m₂.read a) : m₁ = m₂ := by
  induction m₁ generalizing m₂ with
  | nil =>
    cases m₂ with
    | nil => rfl
    | cons c rest =>
      obtain ⟨x, v⟩ := c
      have := h x
      rw [Memory.read_nil, Memory.read_cons, if_pos rfl] at this
      exact absurd this.symm (h₂.2 (x, v) (by simp))
  | cons c rest ih =>
    obtain ⟨x, v⟩ := c
    cases m₂ with
    | nil =>
      have := h x
      rw [Memory.read_nil, Memory.read_cons, if_pos rfl] at this
      exact absurd this (h₁.2 (x, v) (by simp))
    | cons d rest₂ =>
      obtain ⟨y, u⟩ := d
      obtain ⟨hlt₁, hp₁⟩ := List.pairwise_cons.mp h₁.1
      obtain ⟨hlt₂, hp₂⟩ := List.pairwise_cons.mp h₂.1
      have hv := h₁.2 (x, v) (by simp)
      have hu := h₂.2 (y, u) (by simp)
      have hxy : x = y := by
        rcases Nat.lt_trichotomy x y with hlt | heq | hlt
        · have := h x
          rw [Memory.read_cons, if_pos rfl, Memory.read_of_lt (mem := (y, u) :: rest₂) (fun c hc => by
            rcases List.mem_cons.mp hc with rfl | hc
            · exact hlt
            · exact hlt.trans (hlt₂ c hc))] at this
          exact absurd this hv
        · exact heq
        · have := h y
          rw [Memory.read_cons (x := y), if_pos rfl, Memory.read_of_lt (mem := (x, v) :: rest) (fun c hc => by
            rcases List.mem_cons.mp hc with rfl | hc
            · exact hlt
            · exact hlt.trans (hlt₁ c hc))] at this
          exact absurd this.symm hu
      subst hxy
      have hvu : v = u := by simpa [Memory.read_cons] using h x
      subst hvu
      congr 1
      refine ih ⟨hp₁, fun c hc => h₁.2 c (by simp [hc])⟩ ⟨hp₂, fun c hc => h₂.2 c (by simp [hc])⟩ fun a => ?_
      by_cases ha : x = a
      · subst ha
        rw [Memory.read_of_lt (mem := rest) (fun c hc => hlt₁ c hc), Memory.read_of_lt (mem := rest₂) (fun c hc => hlt₂ c hc)]
      · simpa [Memory.read_cons, ha] using h a

end Sys2Proof.Machine
end

