-- ==== Sys2Proof/Laws/State.lean ====
section
/-! SUPPORT. What each update of the state leaves in each field: later proofs rewrite with these and never unfold a record
update. -/

namespace Sys2Proof.Machine

/-! ## `setPc`, `halt` -/

@[simp] theorem setPc_params (s : State) (t : Nat) : (setPc s t).params = s.params := rfl
@[simp] theorem setPc_regs (s : State) (t : Nat) : (setPc s t).regs = s.regs := rfl
@[simp] theorem setPc_pc (s : State) (t : Nat) : (setPc s t).pc = t % s.params.memSize := rfl
@[simp] theorem setPc_mem (s : State) (t : Nat) : (setPc s t).mem = s.mem := rfl
@[simp] theorem setPc_halted (s : State) (t : Nat) : (setPc s t).halted = s.halted := rfl
@[simp] theorem setPc_obuf (s : State) (t : Nat) : (setPc s t).obuf = s.obuf := rfl
@[simp] theorem setPc_out (s : State) (t : Nat) : (setPc s t).out = s.out := rfl

@[simp] theorem halt_params (s : State) : (halt s).params = s.params := rfl
@[simp] theorem halt_regs (s : State) : (halt s).regs = s.regs := rfl
@[simp] theorem halt_pc (s : State) : (halt s).pc = s.pc := rfl
@[simp] theorem halt_mem (s : State) : (halt s).mem = s.mem := rfl
@[simp] theorem halt_halted (s : State) : (halt s).halted = true := rfl
@[simp] theorem halt_obuf (s : State) : (halt s).obuf = s.obuf := rfl
@[simp] theorem halt_out (s : State) : (halt s).out = s.out := rfl

/-! ## `fallThrough` and `jumpAdvance` are `setPc` -/

@[simp] theorem fallThrough_eq (s : State) (last : Nat) : fallThrough s last = setPc s (last + 1) := rfl

@[simp] theorem jumpAdvance_eq (s : State) (last : Nat) (c : Bit) (d : Nat) :
    jumpAdvance s last c d = setPc s (last + if c then d else 1) := rfl

/-! ## `outputTrigger` -/

@[simp] theorem outputTrigger_params (s : State) : (outputTrigger s).params = s.params := by
  unfold outputTrigger; dsimp only; split <;> rfl
@[simp] theorem outputTrigger_regs (s : State) : (outputTrigger s).regs = s.regs := by
  unfold outputTrigger; dsimp only; split <;> rfl
@[simp] theorem outputTrigger_pc (s : State) : (outputTrigger s).pc = s.pc := by
  unfold outputTrigger; dsimp only; split <;> rfl
@[simp] theorem outputTrigger_mem (s : State) : (outputTrigger s).mem = s.mem := by
  unfold outputTrigger; dsimp only; split <;> rfl
@[simp] theorem outputTrigger_halted (s : State) : (outputTrigger s).halted = s.halted := by
  unfold outputTrigger; dsimp only; split <;> rfl

/-! ## `memWrite` -/

@[simp] theorem memWrite_params (s : State) (a : Nat) (b : Bit) : (memWrite s a b).params = s.params := by
  unfold memWrite; dsimp only; split <;> [simp; (split <;> simp)]
@[simp] theorem memWrite_regs (s : State) (a : Nat) (b : Bit) : (memWrite s a b).regs = s.regs := by
  unfold memWrite; dsimp only; split <;> [simp; (split <;> simp)]
@[simp] theorem memWrite_pc (s : State) (a : Nat) (b : Bit) : (memWrite s a b).pc = s.pc := by
  unfold memWrite; dsimp only; split <;> [simp; (split <;> simp)]
@[simp] theorem memWrite_mem (s : State) (a : Nat) (b : Bit) :
    (memWrite s a b).mem = s.mem.write (a % s.params.memSize) b := by
  unfold memWrite; dsimp only; split <;> [simp; (split <;> simp)]

/-! ## `setRegBit` -/

/-- Everything a register-bit write can do: it needs the bit to exist, and then only that register changes. -/
theorem setRegBit_eq_some {s t : State} {n i : Nat} {b : Bit} (h : setRegBit s n i b = some t) :
    (∃ c, regBit s n i = some c) ∧ t = { s with regs := s.regs.modify n fun bits => bits.set i b } := by
  unfold setRegBit at h
  cases hb : regBit s n i with
  | none => simp [hb] at h
  | some c => exact ⟨⟨c, rfl⟩, by simpa [hb] using h.symm⟩

/-- When the bit exists, the write happens. -/
theorem setRegBit_of_regBit {s : State} {n i : Nat} {c : Bit} (b : Bit) (h : regBit s n i = some c) :
    setRegBit s n i b = some { s with regs := s.regs.modify n fun bits => bits.set i b } := by
  simp [setRegBit, h]

end Sys2Proof.Machine
end

