-- ==== Sys2Proof/Laws/Ops.lean ====
section
/-! SUPPORT. Once for each shared operation, everything it can do. -/

namespace Sys2Proof.Machine

theorem memSize_pos (P : Params) : 0 < P.memSize := Nat.two_pow_pos _

theorem memSize_ge_four {P : Params} (h : 1 ≤ P.m) : 4 ≤ P.memSize := by
  have hw : 2 ≤ P.width := by
    calc 2 = 2 ^ 1 := rfl
      _ ≤ 2 ^ P.m := Nat.pow_le_pow_right (by decide) h
  calc 4 = 2 ^ 2 := rfl
    _ ≤ 2 ^ P.width := Nat.pow_le_pow_right (by decide) hw

/-! ## Sequencing -/

/-- `withIndex` gives a next state only through an index that exists. -/
theorem withIndex_eq_next {α : Type} {x : Option α} {k : α → Host.Outcome State Fault Refusal} {t : State}
    (h : withIndex x k = .next t) : ∃ v, x = some v ∧ k v = .next t := by
  cases x with
  | none => cases h
  | some v => exact ⟨v, rfl, h⟩

/-- `withRead` gives a next state only through a read that is defined. -/
theorem withRead_eq_next {α : Type} {x : Except Fault α} {k : α → Host.Outcome State Fault Refusal} {t : State}
    (h : withRead x k = .next t) : ∃ v, x = .ok v ∧ k v = .next t := by
  cases x with
  | error e => cases h
  | ok v => exact ⟨v, rfl, h⟩

@[simp] theorem withIndex_some {α : Type} (v : α) (k : α → Host.Outcome State Fault Refusal) :
    withIndex (some v) k = k v := rfl

@[simp] theorem withRead_ok {α : Type} (v : α) (k : α → Host.Outcome State Fault Refusal) :
    withRead (.ok v) k = k v := rfl

@[simp] theorem withRead_error {α : Type} (e : Fault) (k : α → Host.Outcome State Fault Refusal) :
    withRead (.error e) k = .fault e := rfl

/-! ## Reads -/

/-- A read is defined exactly away from address 2, and is then the stored bit (R42). -/
theorem memRead_eq_ok {s : State} {a : Nat} {b : Bit} :
    memRead s a = .ok b ↔ a % s.params.memSize ≠ outTrigCell ∧ s.mem.read (a % s.params.memSize) = b := by
  unfold memRead
  dsimp only
  split <;> simp_all

/-- The one way a read fails (U1). -/
theorem memRead_eq_error {s : State} {a : Nat} {e : Fault} :
    memRead s a = .error e ↔ a % s.params.memSize = outTrigCell ∧ e = .undefinedRead := by
  unfold memRead
  dsimp only
  split <;> simp_all [eq_comm]

/-- A read sees an address modulo `MEMSIZE` (R41). -/
theorem memRead_mod (s : State) (a : Nat) : memRead s (a % s.params.memSize) = memRead s a := by
  simp [memRead]

/-! ## Writes -/

/-- Everything a `MemWrite` can do (R43): a plain store, a store and the halt, or a store and an output trigger. -/
theorem memWrite_cases (s : State) (a : Nat) (b : Bit) :
    let a' := a % s.params.memSize
    let stored := { s with mem := s.mem.write a' b }
    (a' = haltCell ∧ b = true ∧ memWrite s a b = halt stored) ∨
    (a' = outTrigCell ∧ b = true ∧ memWrite s a b = outputTrigger stored) ∨
    (¬(a' = haltCell ∧ b = true) ∧ ¬(a' = outTrigCell ∧ b = true) ∧ memWrite s a b = stored) := by
  intro a' stored
  by_cases h0 : a' = haltCell ∧ b = true
  · exact .inl ⟨h0.1, h0.2, by unfold memWrite; exact if_pos h0⟩
  · by_cases h2 : a' = outTrigCell ∧ b = true
    · exact .inr (.inl ⟨h2.1, h2.2, by unfold memWrite; exact (if_neg h0).trans (if_pos h2)⟩)
    · exact .inr (.inr ⟨h0, h2, by unfold memWrite; exact (if_neg h0).trans (if_neg h2)⟩)

/-- Everything the output trigger can do (R46, R47): a longer buffer, or an emission and an empty buffer. -/
theorem outputTrigger_cases (s : State) :
    let buf := s.obuf ++ [s.mem.read outBitCell]
    (buf.length ≠ s.params.outWidth ∧ outputTrigger s = { s with obuf := buf }) ∨
    (buf.length = s.params.outWidth ∧ outputTrigger s = { s with obuf := [], out := s.out ++ [uint buf] }) := by
  intro buf
  by_cases h : buf.length = s.params.outWidth
  · exact .inr ⟨h, by unfold outputTrigger; exact if_pos h⟩
  · exact .inl ⟨h, by unfold outputTrigger; exact if_neg h⟩

/-- Every memory operation of the machine keeps the canonical form. -/
theorem memWrite_mem_wf {s : State} (h : s.mem.wf) (a : Nat) (b : Bit) : (memWrite s a b).mem.wf := by
  rw [memWrite_mem]; exact Memory.wf_write h _ _

/-- The memory after reset has the canonical form. -/
theorem reset_mem_wf : State.reset.mem.wf := by decide

/-! ## The program counter -/

theorem lastAddr_lt (s : State) (len : Nat) : lastAddr s len < s.params.memSize := Nat.mod_lt _ (memSize_pos _)

/-- The bit after an instruction of `len` bits stands `len` above its first. -/
theorem lastAddr_add_one {s : State} {len : Nat} (h : 0 < len) :
    (lastAddr s len + 1) % s.params.memSize = (s.pc + len) % s.params.memSize := by
  unfold lastAddr
  rw [Nat.mod_add_mod]
  congr 1
  omega

end Sys2Proof.Machine
end

