-- ==== Sys2Proof/Laws/Exec.lean ====
section
/-! SUPPORT. One lemma per meaning that says everything it can do when it gives a next state, and the same for a step.
Whole-machine rules follow from these and never unfold a meaning. -/

namespace Sys2Proof.Machine

/-- Everything `MEMSET` can do (R120). -/
theorem execMemset_eq_next {n : Nat} {b : Bit} {s t : State} (h : execMemset n b s = .next t) :
    ∃ a, regVal s n = some a ∧ t = setPc (memWrite s a b) (lastAddr s (3 + s.params.r) + 1) := by
  obtain ⟨a, ha, h⟩ := withIndex_eq_next h
  exact ⟨a, ha, by injection h with h; exact h.symm⟩

/-- Everything `MEMJMP` can do (R121). -/
theorem execMemjmp_eq_next {n k : Nat} {s t : State} (h : execMemjmp n k s = .next t) :
    ∃ a d c, regVal s n = some a ∧ regVal s k = some d ∧ memRead s a = .ok c ∧
      t = setPc s (lastAddr s (2 + 2 * s.params.r) + if c then d else 1) := by
  obtain ⟨a, ha, h⟩ := withIndex_eq_next h
  obtain ⟨d, hd, h⟩ := withIndex_eq_next h
  obtain ⟨c, hc, h⟩ := withRead_eq_next h
  exact ⟨a, d, c, ha, hd, hc, by injection h with h; exact h.symm⟩

/-- Everything `REGSET` can do (R130). -/
theorem execRegset_eq_next {n i : Nat} {b : Bit} {s t : State} (h : execRegset n i b s = .next t) :
    (∃ c, regBit s n i = some c) ∧
      t = setPc { s with regs := s.regs.modify n fun bits => bits.set i b }
        (lastAddr s (3 + s.params.r + s.params.m) + 1) := by
  obtain ⟨u, hu, h⟩ := withIndex_eq_next h
  obtain ⟨hc, rfl⟩ := setRegBit_eq_some hu
  exact ⟨hc, by injection h with h; exact h.symm⟩

/-- Everything `REGJMP` can do (R131). -/
theorem execRegjmp_eq_next {n i k : Nat} {s t : State} (h : execRegjmp n i k s = .next t) :
    ∃ c d, regBit s n i = some c ∧ regVal s k = some d ∧
      t = setPc s (lastAddr s (2 + 2 * s.params.r + s.params.m) + if c then d else 1) := by
  obtain ⟨c, hc, h⟩ := withIndex_eq_next h
  obtain ⟨d, hd, h⟩ := withIndex_eq_next h
  exact ⟨c, d, hc, hd, by injection h with h; exact h.symm⟩

/-- Everything a step can do: it needs a running machine and a defined fetch, and is then the instruction fetched. -/
theorem step_eq_next {s t : State} (h : step s = .next t) :
    s.halted = false ∧ ∃ i, fetch s = .ok i ∧ exec i s = .next t := by
  unfold step at h
  cases hh : s.halted with
  | true => simp [hh, haltedOutcome] at h
  | false =>
    rw [hh, if_neg (by decide)] at h
    obtain ⟨i, hi, h⟩ := withRead_eq_next h
    exact ⟨rfl, i, hi, h⟩

/-- An index below the number of registers names a register of `W` bits. -/
theorem regs_getElem? {s : State} (h : regInitOk s.params s.regs) {n : Nat} (hn : n < s.params.regCount) :
    ∃ bits, s.regs[n]? = some bits ∧ bits.length = s.params.width := by
  have hlt : n < s.regs.length := h.1 ▸ hn
  exact ⟨s.regs[n], List.getElem?_eq_getElem hlt, h.2 _ (List.getElem_mem hlt)⟩

/-- Every register has a value, and it is an address (R36). -/
theorem regVal_eq_some {s : State} (h : regInitOk s.params s.regs) {n : Nat} (hn : n < s.params.regCount) :
    ∃ v, regVal s n = some v ∧ v < s.params.memSize := by
  obtain ⟨bits, hb, hlen⟩ := regs_getElem? h hn
  exact ⟨uint bits, by simp [regVal, hb], by rw [Params.memSize, ← hlen]; exact uint_lt bits⟩

/-- Every bit of every register exists. -/
theorem regBit_eq_some {s : State} (h : regInitOk s.params s.regs) {n i : Nat} (hn : n < s.params.regCount)
    (hi : i < s.params.width) : ∃ c, regBit s n i = some c := by
  obtain ⟨bits, hb, hlen⟩ := regs_getElem? h hn
  have : i < bits.length := hlen ▸ hi
  exact ⟨bits[i], by simp [regBit, hb, this]⟩

end Sys2Proof.Machine
end

