-- ==== Sys2Proof/Laws/Labels.lean ====
section
/-! SUPPORT. What recognising placeholders, emitting pieces and evaluating lines can do, said once: each goes over a list
from left to right, so a success on `a ++ b` is a success on `a` and then on `b`. -/

namespace Sys2Proof.Machine

@[simp] theorem Template.map_map {α β γ : Type} (f : α → β) (g : β → γ) (t : Template α) :
    (t.map f).map g = t.map (g ∘ f) := by cases t <;> rfl

@[simp] theorem SourceLine.map_map {α β γ : Type} (f : α → β) (g : β → γ) (line : SourceLine α) :
    (line.map f).map g = line.map (g ∘ f) := by
  cases line <;> simp only [SourceLine.map, Template.map_map] <;> rfl

@[simp] theorem Template.length_map {α β : Type} (P : Params) (f : α → β) (t : Template α) :
    (t.map f).length P = t.length P := by cases t <;> rfl

/-- Kinds that do not match are passed over. -/
theorem recognise_append {before : List PlaceholderKind} {token : List Char}
    (h : ∀ k ∈ before, tryKind k token = .ok none) (after : List PlaceholderKind) :
    recognise (before ++ after) token = recognise after token := by
  induction before with
  | nil => rfl
  | cons kind before ih =>
    simp only [List.cons_append, recognise, h kind (by simp), bind, Except.bind]
    exact ih fun k hk => h k (by simp [hk])

theorem referencedNames_append (a b : List Captured) :
    referencedNames (a ++ b) = referencedNames a ++ referencedNames b := by
  simp [referencedNames, List.filterMap_append]

theorem declaredNames_append (a b : List Captured) :
    declaredNames (a ++ b) = declaredNames a ++ declaredNames b := by
  simp [declaredNames, List.filterMap_append]

/-- Everything emitting `a ++ b` can do when it answers: `a` from the same offset, then `b` from past `a`'s bits. -/
theorem emitPieces_append {P : Params} {start : Nat} {a b : List (Piece Int)} {bits : BitString} {table : LabelTable}
    (h : emitPieces P start (a ++ b) = .ok (bits, table)) :
    ∃ bits₁ table₁ bits₂ table₂, emitPieces P start a = .ok (bits₁, table₁) ∧
      emitPieces P (start + bits₁.length) b = .ok (bits₂, table₂) ∧ bits = bits₁ ++ bits₂ ∧ table = table₁ ++ table₂ := by
  induction a generalizing start bits table with
  | nil => exact ⟨[], [], bits, table, rfl, h, rfl, rfl⟩
  | cons p a ih =>
    cases p with
    | label name =>
      simp only [emitPieces, List.cons_append] at h ⊢
      cases he : emitPieces P start (a ++ b) with
      | error => simp [he, bind, Except.bind] at h
      | ok out =>
        obtain ⟨rfl, rfl⟩ : out.1 = bits ∧ (name, start) :: out.2 = table := by simpa [he, bind, Except.bind] using h
        obtain ⟨b1, t1, b2, t2, h1, h2, h3, h4⟩ := ih he
        exact ⟨b1, (name, start) :: t1, b2, t2, by simp [h1, bind, Except.bind], h2, h3, by simp [h4]⟩
    | emit line =>
      simp only [emitPieces, List.cons_append] at h ⊢
      cases hl : encodeLine P line with
      | error => simp [hl, bind, Except.bind] at h
      | ok own =>
        cases he : emitPieces P (start + own.length) (a ++ b) with
        | error => simp [hl, he, bind, Except.bind] at h
        | ok out =>
          obtain ⟨rfl, rfl⟩ : own ++ out.1 = bits ∧ out.2 = table := by simpa [hl, he, bind, Except.bind] using h
          obtain ⟨b1, t1, b2, t2, h1, h2, h3, h4⟩ := ih he
          exact ⟨own ++ b1, t1, b2, t2, by simp [h1, bind, Except.bind], by simpa [Nat.add_assoc] using h2,
            by simp [h3], h4⟩

/-- Everything evaluating `a ++ b` can do when it answers: the lines `a`, then the lines `b` from past `a`'s bits, numbered
on. -/
theorem evalLines_append {α : Type} {eval : Nat → α → Except AsmError (BitString × LabelTable)} {start number : Nat}
    {a b : List α} {bits : BitString} {table : LabelTable}
    (h : evalLines eval start number (a ++ b) = .ok (bits, table)) :
    ∃ bits₁ table₁ bits₂ table₂, evalLines eval start number a = .ok (bits₁, table₁) ∧
      evalLines eval (start + bits₁.length) (number + a.length) b = .ok (bits₂, table₂) ∧
      bits = bits₁ ++ bits₂ ∧ table = table₁ ++ table₂ := by
  induction a generalizing start number bits table with
  | nil => exact ⟨[], [], bits, table, rfl, h, rfl, rfl⟩
  | cons line a ih =>
    simp only [evalLines, List.cons_append] at h ⊢
    cases hl : eval start line with
    | error => simp [hl] at h
    | ok own =>
      cases he : evalLines eval (start + own.1.length) (number + 1) (a ++ b) with
      | error => simp [hl, he, bind, Except.bind] at h
      | ok out =>
        obtain ⟨rfl, rfl⟩ : own.1 ++ out.1 = bits ∧ own.2 ++ out.2 = table := by
          simpa [hl, he, bind, Except.bind] using h
        obtain ⟨b1, t1, b2, t2, h1, h2, h3, h4⟩ := ih he
        refine ⟨own.1 ++ b1, own.2 ++ t1, b2, t2, by simp [h1, bind, Except.bind], ?_, by simp [h3], by simp [h4]⟩
        simpa [Nat.add_assoc, Nat.add_comm 1] using h2

end Sys2Proof.Machine
end

