-- ==== Sys2Proof/Laws/Launch.lean ====
section
/-! SUPPORT. The laws of the image loader and of the launch. -/

namespace Sys2Proof.Machine

@[simp] theorem imageBits_length (image : List Byte) : (imageBits image).length = 8 * image.length := by
  induction image with
  | nil => rfl
  | cons b bs ih => simp [imageBits, List.flatMap_cons] at *; omega

/-- Everything a launch can do when it gives a state: its arguments were legal and the image fitted. -/
theorem launch_eq_next {P : Params} {regInit : List BitString} {memInit : Memory} {image : List Byte} {s : State}
    (h : launch P regInit memInit image = .next s) :
    (P.legal ∧ regInitOk P regInit ∧ memInitOk P memInit) ∧ imageFits P image ∧
      s = { params := P, regs := regInit, pc := loadAddr,
            mem := memInit.storeBits P.memSize loadAddr (imageBits image), halted := false, obuf := [], out := [] } := by
  unfold launch at h
  split at h
  · next h1 =>
    split at h
    · next h2 => injection h with h; exact ⟨h1, h2, h.symm⟩
    · cases h
  · cases h

/-- Every cell of a launched memory: the image over `MEM_INIT`. -/
theorem launch_mem_read {P : Params} {memInit : Memory} {image : List Byte} (hm : memInit.wf) (hf : imageFits P image)
    (a : Nat) : (memInit.storeBits P.memSize loadAddr (imageBits image)).read a =
      if loadAddr ≤ a then ((imageBits image)[a - loadAddr]?).getD (memInit.read a) else memInit.read a :=
  Memory.read_storeBits _ hm.1 (by rw [imageBits_length]; unfold imageFits at hf; omega) a

end Sys2Proof.Machine
end

