-- ==== Sys2Proof/Laws/PerInstr.lean ====
section
/-! SUPPORT. Per-instruction statements about the encoding, one lemma per constructor of `Instr` (LAWS.json). -/

namespace Sys2Proof.Laws.EncodingShape

/-- The encoding has the format's length (R72 to R75), and its first two bits are the opcode (R71). -/
def Statement (i : Instr) : Prop :=
  ∀ P : Params, (encode P i).length = i.length P ∧ (encode P i).take 2 = i.opcode

theorem memset (n : Nat) (b : Bit) : Statement (.memset n b) := fun P => by
  simp [encode, Instr.length, Instr.opcode]; omega

theorem memjmp (n k : Nat) : Statement (.memjmp n k) := fun P => by
  simp [encode, Instr.length, Instr.opcode]; omega

theorem regset (n i : Nat) (b : Bit) : Statement (.regset n i b) := fun P => by
  simp [encode, Instr.length, Instr.opcode]; omega

theorem regjmp (n i k : Nat) : Statement (.regjmp n i k) := fun P => by
  simp [encode, Instr.length, Instr.opcode]; omega

end Sys2Proof.Laws.EncodingShape
end

