-- ==== Sys2Proof/Tests/Slice0.lean ====
section
/-! SUPPORT. The model's own tests and the witnesses of the statements' hypotheses. Every expected result is the spec's
(spec/95_test_vectors.md, the vector named in the comment) or written out by hand from the spec's encodings. -/

namespace Sys2Proof.Tests

open Sys2Proof.Machine

/-! ## Helpers -/

/-- A bit string written with zeros and ones. -/
def bits (l : List Nat) : BitString := l.map (· != 0)

/-- The reference machine at `pc` with the given register values and the given bits stored from `pc` upward, over the cells
`cells` that hold 1. Everything not listed is 0, as in the spec's vectors. -/
def at_ (pc : Nat) (code : List Nat) (vals : List Nat) (cells : List Nat) : State :=
  { State.reset with
    pc := pc
    regs := (vals ++ List.replicate (8 - vals.length) 0).map (bitsOf 16)
    mem := Memory.storeBits 65536 (cells.foldl (fun (mem : Memory) a => Memory.write mem a true) []) pc (bits code) }

/-- The next state of an outcome, if it is one. -/
def after : Host.Outcome State Fault Refusal → Option State
  | .next t => some t
  | .fault _ => none
  | .refused _ => none

/-- One field of the state after a step. -/
def stepThen {α : Type} (s : State) (f : State → α) : Option α := (after (step s)).map f

/-! ## Well-formedness: each check refuses an ill-formed term -/

theorem test_wf_accepts_largest_indices :
    (Instr.memset 7 true).wf Params.reference ∧ (Instr.memjmp 7 7).wf Params.reference ∧
      (Instr.regset 7 15 true).wf Params.reference ∧ (Instr.regjmp 7 15 7).wf Params.reference := by decide
theorem test_wf_refuses_address_register : ¬ (Instr.memset 8 true).wf Params.reference := by decide
theorem test_wf_refuses_condition_register : ¬ (Instr.memjmp 8 0).wf Params.reference := by decide
theorem test_wf_refuses_displacement_register : ¬ (Instr.memjmp 0 8).wf Params.reference := by decide
theorem test_wf_refuses_target_register : ¬ (Instr.regset 8 0 true).wf Params.reference := by decide
theorem test_wf_refuses_bit_index : ¬ (Instr.regset 0 16 true).wf Params.reference := by decide
theorem test_wf_refuses_tested_register : ¬ (Instr.regjmp 8 0 0).wf Params.reference := by decide
theorem test_wf_refuses_tested_bit_index : ¬ (Instr.regjmp 0 16 0).wf Params.reference := by decide
theorem test_wf_refuses_regjmp_displacement : ¬ (Instr.regjmp 0 0 8).wf Params.reference := by decide

/-! ## Decoding: words written out bit by bit from the spec's encodings (S1, S2, R72 to R75) -/

theorem test_decode_memset : decode Params.reference (bits [0,0, 1,0,1, 0]) = .ok (.memset 5 false, []) := rfl
theorem test_decode_memjmp : decode Params.reference (bits [0,1, 0,0,0, 0,0,1]) = .ok (.memjmp 0 1, []) := rfl
theorem test_decode_regset :
    decode Params.reference (bits [1,0, 1,1,0, 0,1,0,0, 1]) = .ok (.regset 6 4 true, []) := rfl
theorem test_decode_regjmp :
    decode Params.reference (bits [1,1, 0,1,1, 1,0,1,1, 0,0,1]) = .ok (.regjmp 3 11 1, []) := rfl
/-- S2: `(r=1, m=2)`, `101101` is `reg[1][2] = 1`; the bits after it are left over. -/
theorem test_decode_small_machine :
    decode { r := 1, m := 2, outWidth := 8 } (bits [1,0, 1, 1,0, 1, 0,0]) = .ok (.regset 1 2 true, bits [0,0]) := rfl
theorem test_decode_ends_early :
    decode Params.reference (bits [1,0, 0,0]) = .error (.endOfBits 4) := rfl
theorem test_encode_words :
    encode Params.reference (.memset 0 true) = bits [0,0,0,0,0,1] ∧
    encode Params.reference (.memjmp 0 1) = bits [0,1,0,0,0,0,0,1] ∧
    encode Params.reference (.regset 1 15 true) = bits [1,0,0,0,1,1,1,1,1,1] ∧
    encode Params.reference (.regjmp 3 11 3) = bits [1,1,0,1,1,1,0,1,1,0,1,1] := by decide
theorem test_encoder_names_value_and_width :
    encodeChecked Params.reference (.regset 3 16 1) = .error (.valueOutOfRange 16 4) ∧
    encodeChecked Params.reference (.memset (-1) 1) = .error (.valueOutOfRange (-1) 3) ∧
    encodeChecked Params.reference (.memset 7 2) = .error (.valueOutOfRange 2 1) := ⟨rfl, rfl, rfl⟩

/-! ## The opcode table's words: the row's `match` value with every field zero, and one with fields -/

theorem test_table_memset : decodeTableWord 8 0x00 = some (.memset 0 false) := by decide
theorem test_table_memjmp : decodeTableWord 8 0x41 = some (.memjmp 0 1) := by decide
theorem test_table_regset : decodeTableWord 16 0x200 = some (.regset 0 0 false) := by decide
theorem test_table_regjmp : decodeTableWord 16 0xC00 = some (.regjmp 0 0 0) := by decide
theorem test_table_rows_exact_width : decodeTableWord 6 0x0B = some (.memset 5 true) ∧
    decodeTableWord 12 0xDDB = some (.regjmp 3 11 3) := by decide
theorem test_fetch_table_words :
    fetch (State.reset.withFetchWord 8 0x00) = .ok (.memset 0 false) ∧
    fetch (State.reset.withFetchWord 8 0x41) = .ok (.memjmp 0 1) ∧
    fetch (State.reset.withFetchWord 16 0x23F) = .ok (.regset 1 15 true) ∧
    fetch (State.reset.withFetchWord 16 0xC79) = .ok (.regjmp 0 15 1) := ⟨rfl, rfl, rfl, rfl⟩
theorem test_step_table_word :
    step (State.reset.withFetchWord 16 0x200) =
      exec (.regset 0 0 false) (State.reset.withFetchWord 16 0x200) := rfl

/-! ## One step each -/

/-- M1: `mem[reg[0]] = 1` with `val(0) = 0` halts; `pc = 9`. -/
theorem test_memset_halts :
    stepThen (at_ 3 [0,0,0,0,0,1] [0] []) (fun t => (t.mem.read 0, t.halted, t.pc, t.out)) =
      some (true, true, 9, []) := by decide
/-- M5: the eighth trigger emits `0x41`. -/
theorem test_memset_emits :
    stepThen { at_ 3 [0,0,0,1,0,1] [0,1,2] [1] with obuf := bits [0,1,0,0,0,0,0] }
      (fun t => (t.mem.read 2, t.obuf, t.out, t.pc)) = some (true, [], [0x41], 9) := by decide
/-- J1 and J2: taken from the last bit by 5, not taken by 1. -/
theorem test_memjmp_taken_and_not :
    stepThen (at_ 3 [0,1,0,0,0,0,0,1] [100,5] [100]) State.pc = some 15 ∧
    stepThen (at_ 3 [0,1,0,0,0,0,0,1] [100,5] []) State.pc = some 11 := by decide
/-- J7: the instruction straddles the top of memory up to address 1. -/
theorem test_memjmp_wraps :
    stepThen (at_ 65530 [0,1,0,0,0,0,0,1] [100,5] [100]) State.pc = some 6 := by decide
/-- J8: the condition read of address 2 faults. -/
theorem test_memjmp_address_two : step (at_ 3 [0,1,0,0,0,0,0,1] [2,5] []) = .fault .undefinedRead := rfl
/-- R4v: `reg[3][7] = 0` on `0xFFFF` gives `0xFEFF`. -/
theorem test_regset_clears_a_bit :
    stepThen (at_ 3 [1,0,0,1,1,0,1,1,1,0] [0,0,0,0xFFFF] []) (fun t => (regVal t 3, t.pc)) =
      some (some 0xFEFF, 13) := by decide
/-- R7v: a register that takes the value 2 triggers nothing. -/
theorem test_regset_triggers_nothing :
    stepThen (at_ 3 [1,0,0,1,0,1,1,1,0,1] [] [1]) (fun t => (regVal t 2, t.obuf, t.halted)) =
      some (some 2, [], false) := by decide
/-- K1: one bit backward, modulo 65536. -/
theorem test_regjmp_backward :
    stepThen (at_ 3 [1,1,0,0,0,1,1,1,1,0,0,1] [1,0xFFFF] []) State.pc = some 13 := by decide
/-- K3 and K3n: the tested register is the displacement. -/
theorem test_regjmp_same_register :
    stepThen (at_ 3 [1,1,0,1,1,1,0,1,1,0,1,1] [0,0,0,21] []) State.pc = some 35 ∧
    stepThen (at_ 3 [1,1,0,1,1,1,0,1,1,0,1,1] [0,0,0,5] []) State.pc = some 15 := by decide

/-! ## Load and composite forms -/

/-- S10: the program `000001` packs to `0x04`. -/
theorem test_pack : packImage (bits [0,0,0,0,0,1]) = [0x04] := by decide
/-- P5's image, from its source lines. -/
theorem test_image :
    (emitProgram { r := 1, m := 3, outWidth := 8 }
      [[.emit (.template (.regset 1 3 1))], [.emit (.template (.regset 1 4 1))], [.emit (.template (.memset 1 1))],
       [.emit (.template (.memset 0 0))]]).map (fun out => packImage out.1) = .ok [0xaf, 0x64, 0xc0] := rfl
/-- S3: eight sub-instructions, the first and last as listed. -/
theorem test_from_known :
    expandFromKnown Params.reference 3 0x00FF 0x0F0F =
      [.regset 3 4 true, .regset 3 5 true, .regset 3 6 true, .regset 3 7 true,
       .regset 3 8 false, .regset 3 9 false, .regset 3 10 false, .regset 3 11 false] := by decide
/-- S4: `(r=1, m=2)`, constant 10. -/
theorem test_from_any :
    setFullRegisterFromAny { r := 1, m := 2, outWidth := 8 } 1 10 =
      .ok (bits [1,0,1,0,0,1, 1,0,1,0,1,0, 1,0,1,1,0,1, 1,0,1,1,1,0]) := rfl
/-- C5v and C7v. -/
theorem test_difference_and_range :
    differenceConst Params.reference 10 25 = 0xFFF1 ∧
    setFullRegisterFromAny Params.reference 0 65536 = .error (.valueOutOfRange 65536 16) := ⟨rfl, rfl⟩
/-- The template of `reg[1][15] = 1` (S1). -/
theorem test_source_line : sourceLine (.regset 1 15 true) = "reg[1][15] = 1" := by decide

/-- A placeholder of kind `X` and one of kind `L`. -/
def x (s : String) : Placeholder := ⟨[.X], s.toList⟩
def l (s : String) : Placeholder := ⟨[.L], s.toList⟩
/-- A jump on two references, and a label one past its last bit. -/
def jumpLine : List LinePart := [⟨some .memjmp, [l "@.here", x ".a", x ".b"]⟩, ⟨none, [l "@.past"]⟩]
/-- R87 to R90: the labels' offsets, the error of each kind, each with its line. -/
theorem test_eval_line :
    (evalLine Params.reference 40 (some jumpLine) [0, 1]) =
      .ok (bits [0,1,0,0,0,0,0,1], [("here".toList, 40), ("past".toList, 48)]) := rfl
theorem test_failures_name_the_line :
    evalProgram Params.reference [(some jumpLine, [0, 1]), (some jumpLine, [0])] =
      .error ⟨1, .unresolvedLabelReference⟩ ∧
    evalProgram Params.reference [(some jumpLine, [0, 1, 2])] = .error ⟨0, .unconsumedOffsets⟩ ∧
    evalProgram Params.reference [(some jumpLine, [0, 8])] = .error ⟨0, .valueOutOfRange 8 3⟩ ∧
    evalProgram Params.reference [(some jumpLine, [0, 1]), (some [⟨none, [⟨[.exact "any".toList], "all".toList⟩]⟩], [])] =
      .error ⟨1, .invalidOperand "all".toList⟩ ∧
    evalProgram Params.reference [(none, [])] = .error ⟨0, .noMatchingPattern⟩ := ⟨rfl, rfl, rfl, rfl, rfl⟩
theorem test_analyse_line :
    analyseLine Params.reference (some jumpLine) =
      .ok ⟨8, 8, ["here".toList, "past".toList], ["a".toList, "b".toList]⟩ ∧
    analyseLine Params.reference (some [⟨some .setFromAny, [x ".a", x ".b"]⟩]) =
      .ok ⟨0, 160, [], ["a".toList, "b".toList]⟩ := ⟨rfl, rfl⟩

/-! ## Witnesses: the hypotheses of each statement, met together -/

/-- A small machine, `(r=1, m=2)`: 2 registers of 4 bits, 16 memory bits. -/
def small : Params := { r := 1, m := 2, outWidth := 8 }

theorem witness_launch :
    small.legal ∧ regInitOk small [bits [0,1,0,1], bits [1,1,1,1]] ∧ memInitOk small [(2, true), (15, true)] ∧
      imageFits small [0x04] := by decide
theorem witness_load :
    (∃ s, launch small (zeroRegs small) [(2, true)] [0x04] = .next s) ∧ [0x04] = packImage (bits [0,0,0,0,0,1]) :=
  ⟨⟨_, rfl⟩, by decide⟩
/-- One byte is the most the small machine holds: 8 ≤ 13 < 16. -/
theorem witness_overlong :
    8 * [(0x04 : Byte)].length ≤ small.memSize - 3 ∧ ¬ 8 * [(0x04 : Byte), 0x00].length ≤ small.memSize - 3 := by decide

/-- `mem[reg[0]] = 1` at address 3, `val(0) = 0`. -/
def halting : State := at_ 3 [0,0,0,0,0,1] [0,1,2] [1]
/-- `mem[reg[0]] = 0` at address 3, over a stored 1. -/
def clearing : State := at_ 3 [0,0,0,0,0,0] [0,1,2] [0]
/-- `mem[reg[2]] = 1` at address 3: an output trigger. -/
def triggering : State := at_ 3 [0,0,0,1,0,1] [0,1,2] [1]
/-- `mem[reg[0]] ? pp += reg[1]` at address 3 with a taken condition, `val(1) = 5`. -/
def jumping : State := at_ 3 [0,1,0,0,0,0,0,1] [100,5] [100]
/-- `reg[0][15] ? pp += reg[1]` at address 3 with `val(1) = 65536 - 11`: it jumps to itself (K4). -/
def looping : State := at_ 3 [1,1,0,0,0,1,1,1,1,0,0,1] [1,0xFFF5] []
/-- `reg[1][15] = 1` at address 3. -/
def setting : State := at_ 3 [1,0,0,0,1,1,1,1,1,1] [] []
/-- `pc = 2`: the first fetched bit is the trigger cell. -/
def onTrigger : State := { State.reset with pc := 2 }
/-- `mem[reg[3]] = 1` with `val(3) = 11`: it rewrites bit 2 of the instruction that follows at address 9. -/
def selfModifying : State := at_ 3 [0,0,0,1,1,1] [0,0,0,11] []

theorem witness_wf : halting.wf ∧ clearing.wf ∧ triggering.wf ∧ jumping.wf ∧ looping.wf ∧ setting.wf ∧
    onTrigger.wf ∧ selfModifying.wf := by
  refine ⟨?_, ?_, ?_, ?_, ?_, ?_, ?_, ?_⟩ <;> decide
theorem witness_step_runs :
    halting.halted = false ∧ decode halting.params (bits [0,0,0,0,0,1]) = .ok (.memset 0 true, []) ∧
      ∀ j (h : j < (bits [0,0,0,0,0,1]).length), memRead halting (halting.pc + j) = .ok (bits [0,0,0,0,0,1])[j] := by
  refine ⟨rfl, rfl, fun j h => ?_⟩
  have hj : j < 6 := h
  interval_cases j <;> rfl
theorem witness_fetch_defined :
    decode halting.params (halting.storedBits halting.params.maxLength) = .ok (.memset 0 true, bits [0,0,0,0,0,0]) ∧
      halting.fetchAvoidsTrigger (Instr.length halting.params (.memset 0 true)) := ⟨rfl, by decide⟩
theorem witness_fetch_undefined :
    decode onTrigger.params (onTrigger.storedBits onTrigger.params.maxLength) = .ok (.memset 0 false, bits [0,0,0,0,0,0]) ∧
      ¬ onTrigger.fetchAvoidsTrigger (Instr.length onTrigger.params (.memset 0 false)) := ⟨rfl, by decide⟩
theorem witness_outcomes : ({ halting with halted := true } : State).wf ∧ halting.wf ∧ halting.halted = false := by decide
/-- The four clauses: address 0, a plain address, address 2 with room and address 2 with a full buffer. -/
theorem witness_memset :
    halting.wf ∧ 0 < halting.params.regCount ∧ regVal halting 0 = some 0 ∧ regVal halting 1 = some 1 ∧
      regVal halting 2 = some 2 ∧ halting.obuf.length + 1 < halting.params.outWidth ∧
      ({ halting with obuf := bits [0,1,0,0,0,0,0] } : State).wf ∧
      (bits [0,1,0,0,0,0,0]).length + 1 = halting.params.outWidth := by decide
theorem witness_memjmp :
    jumping.wf ∧ 0 < jumping.params.regCount ∧ 1 < jumping.params.regCount ∧ regVal jumping 0 = some 100 ∧
      regVal jumping 1 = some 5 ∧ regVal halting 2 = some 2 := by decide
theorem witness_regset :
    setting.wf ∧ 7 < setting.params.regCount ∧ 15 < setting.params.width ∧ regBit setting 7 15 = some false ∧
      regVal setting 7 = some 0 := by decide
theorem witness_regjmp :
    looping.wf ∧ 0 < looping.params.regCount ∧ 15 < looping.params.width ∧ 1 < looping.params.regCount ∧
      regBit looping 0 15 = some true ∧ regVal looping 1 = some 0xFFF5 := by decide
theorem witness_unencodable : halting.wf ∧ ¬ (Instr.memset 8 true).wf halting.params := by decide
theorem witness_memset_frame :
    halting.wf ∧ (after (exec (.memset 0 true) halting)).isSome = true ∧ regVal halting 0 = some 0 := by decide
theorem witness_regset_frame : (after (exec (.regset 1 15 true) setting)).isSome = true := by decide
theorem witness_jump_frame :
    (after (exec (.memjmp 0 1) jumping)).isSome = true ∧ (after (exec (.regjmp 0 15 1) looping)).isSome = true := by decide
theorem witness_round_trip : (Instr.regjmp 7 15 7).wf Params.reference := by decide
theorem witness_decoded : decode Params.reference (bits [0,0,1,1,1,1,1]) = .ok (.memset 7 true, bits [1]) := rfl
theorem witness_long_enough : Params.reference.maxLength ≤ (List.replicate 12 true).length := by decide
theorem witness_encoder :
    (∀ f ∈ (Template.regset (7 : Int) 15 1).fields Params.reference, f.fits) ∧
    ¬ (∀ f ∈ (Template.regset (7 : Int) (-1) 1).fields Params.reference, f.fits) ∧
    (Instr.memjmp 7 7).wf Params.reference := by decide
theorem witness_step_next :
    halting.wf ∧ (after (step halting)).isSome = true ∧ setting.wf ∧ (after (step setting)).isSome = true := by decide
/-- Both values of the halt cell's write. -/
theorem witness_halt :
    fetch halting = .ok (.memset 0 true) ∧ regVal halting 0 = some 0 ∧ stepThen halting State.halted = some true ∧
      fetch clearing = .ok (.memset 0 false) ∧ regVal clearing 0 = some 0 ∧ stepThen clearing State.halted = some false :=
  ⟨rfl, by decide, by decide, rfl, by decide, by decide⟩
theorem witness_output :
    triggering.wf ∧ stepThen triggering State.obuf = some (bits [1]) ∧ triggering.obuf = [] := by decide
theorem witness_registers_change :
    setting.wf ∧ stepThen setting (fun t => decide (t.regs ≠ setting.regs)) = some true := by decide
theorem witness_memory_changes :
    halting.wf ∧ stepThen halting (fun t => decide (t.mem ≠ halting.mem)) = some true := by decide
theorem witness_store_seen :
    selfModifying.wf ∧ regVal selfModifying 3 = some 11 ∧
      (∃ t, exec (.memset 3 true) selfModifying = .next t ∧ fetch t = .ok (.memset 4 false) ∧
        2 < Instr.length t.params (.memset 4 false) ∧ (t.pc + 2) % t.params.memSize = 11) :=
  ⟨by decide, by decide, _, rfl, rfl, by decide, by decide⟩
/-- A backward jump by 11 for `REGJMP` (last bit 14) and by 7 for `MEMJMP` (last bit 10). -/
theorem witness_backward :
    looping.wf ∧ regVal looping 1 = some (looping.params.memSize - 11) ∧ regBit looping 0 15 = some true ∧
      11 ≤ lastAddr looping (2 + 2 * looping.params.r + looping.params.m) ∧
      (at_ 3 [0,1,0,0,0,0,0,1] [100,0xFFF9] [100]).wf ∧
      regVal (at_ 3 [0,1,0,0,0,0,0,1] [100,0xFFF9] [100]) 1 = some (Params.reference.memSize - 7) ∧
      regVal (at_ 3 [0,1,0,0,0,0,0,1] [100,0xFFF9] [100]) 0 = some 100 ∧
      (at_ 3 [0,1,0,0,0,0,0,1] [100,0xFFF9] [100]).mem.read 100 = true ∧
      7 ≤ lastAddr (at_ 3 [0,1,0,0,0,0,0,1] [100,0xFFF9] [100]) (2 + 2 * Params.reference.r) := by decide
theorem witness_self_jump :
    looping.wf ∧ looping.halted = false ∧ fetch looping = .ok (.regjmp 0 15 1) ∧ regBit looping 0 15 = some true ∧
      1 + 2 * looping.params.r + looping.params.m ≤ looping.params.memSize ∧
      regVal looping 1 = some (looping.params.memSize - (1 + 2 * looping.params.r + looping.params.m)) :=
  ⟨by decide, rfl, rfl, by decide, by decide, by decide⟩
/-- `mem[reg[0]] ? pp += reg[1]` at address 3 with `val(1) = 65536 - 7`. -/
theorem witness_self_jump_memory :
    (at_ 3 [0,1,0,0,0,0,0,1] [100,0xFFF9] [100]).wf ∧
      fetch (at_ 3 [0,1,0,0,0,0,0,1] [100,0xFFF9] [100]) = .ok (.memjmp 0 1) ∧
      regVal (at_ 3 [0,1,0,0,0,0,0,1] [100,0xFFF9] [100]) 0 = some 100 ∧
      (at_ 3 [0,1,0,0,0,0,0,1] [100,0xFFF9] [100]).mem.read 100 = true ∧
      regVal (at_ 3 [0,1,0,0,0,0,0,1] [100,0xFFF9] [100]) 1 =
        some (Params.reference.memSize - (1 + 2 * Params.reference.r)) := ⟨by decide, rfl, by decide, by decide, by decide⟩
theorem witness_emission :
    halting.wf ∧ halting.obuf = [] ∧ (bits [0,1,0,0,0,0,0,1]).length = halting.params.outWidth ∧
      1 < halting.params.regCount ∧ 2 < halting.params.regCount ∧ regVal halting 1 = some 1 ∧
      regVal halting 2 = some 2 := by decide
theorem witness_from_any : halting.wf ∧ 3 < halting.params.regCount ∧ 0xFFFF < 2 ^ halting.params.width := by decide
theorem witness_from_known :
    halting.wf ∧ 2 < halting.params.regCount ∧ 2 < 2 ^ halting.params.width ∧ 0xF0F0 < 2 ^ halting.params.width ∧
      regVal halting 2 = some 2 := by decide
theorem witness_difference :
    (10 : Int) < 25 ∧ (25 : Int) - 10 ≤ 2 ^ Params.reference.width ∧ 65535 < Params.reference.memSize := by decide
theorem witness_zero_length : Params.reference.legal ∧ 7 < Params.reference.regCount ∧
    0xFFFF < 2 ^ Params.reference.width ∧
    evalLines (emitPieces Params.reference) 40 1 [[.emit (.template (.memset 0 1))]] =
      .ok (bits [0,0,0,0,0,1], []) := ⟨by decide, by decide, by decide, rfl⟩
/-- The largest values, one above, and one below zero, for each input. -/
theorem witness_range :
    ((0 : Int) ≤ 7 ∧ (7 : Int) < 2 ^ Params.reference.r) ∧ ((0 : Int) ≤ 0xFFFF ∧ (0xFFFF : Int) < 2 ^ Params.reference.width) ∧
      ¬((0 : Int) ≤ 8 ∧ (8 : Int) < 2 ^ Params.reference.r) ∧ ¬((0 : Int) ≤ -1 ∧ (-1 : Int) < 2 ^ Params.reference.r) ∧
      ¬((0 : Int) ≤ 0x10000 ∧ (0x10000 : Int) < 2 ^ Params.reference.width) := by decide
theorem witness_sizes :
    (∃ b, setFullRegisterFromAny small 1 10 = .ok b) ∧ ∃ b, setFullRegisterFromKnown small 1 0 5 = .ok b :=
  ⟨⟨_, rfl⟩, ⟨_, rfl⟩⟩
theorem witness_line_size :
    encodeLine small (.template (.memset 1 1)) = .ok (bits [0,0,1,1]) ∧
      ∃ b, encodeLine small (.setDifferenceFromKnown 0 0 1 3) = .ok b := ⟨rfl, ⟨_, rfl⟩⟩
/-- Kinds that do not match a token, and one that does; a reference, a declaration and the two malformed tokens. -/
theorem witness_kinds :
    (∀ k ∈ [PlaceholderKind.exact "any".toList, .L], tryKind k "5".toList = .ok none) ∧
      tryKind .S "5".toList = .ok (some (.text "5".toList)) ∧
      (∀ token ∈ [".a".toList, "@.a".toList, ".".toList, "@.".toList],
        tryKind (.exact "any".toList) token = .ok none) := by
  refine ⟨fun k hk => ?_, rfl, fun t ht => ?_⟩
  · rcases List.mem_pair.mp hk with rfl | rfl <;> rfl
  · fin_cases ht <;> rfl
theorem witness_references :
    ([1] : List Int).length < (referencedNames [.reference "a".toList, .declares "b".toList, .reference "c".toList]).length ∧
      [Captured.reference "a".toList, .declares "b".toList, .reference "c".toList] =
        [.reference "a".toList, .declares "b".toList] ++ .reference "c".toList :: [] := ⟨by decide, rfl⟩
/-- One offset too few and one too many; a placeholder that no kind matches after one that matches. -/
theorem witness_line_offsets :
    (∃ parts, recogniseLine (some jumpLine) = .ok parts ∧
      [0].length < (referencedNames (parts.flatMap Prod.snd)).length ∧
      (referencedNames (parts.flatMap Prod.snd)).length < [0, 1, 2].length) ∧
    [(⟨some .memset, [x ".a", ⟨[.exact "any".toList], "5".toList⟩]⟩ : LinePart)].flatMap LinePart.placeholders =
      [x ".a"] ++ ⟨[.exact "any".toList], "5".toList⟩ :: [] ∧
    (∃ found, recogniseAll [x ".a"] = .ok found) ∧ tryKind (.exact "any".toList) "5".toList = .ok none :=
  ⟨⟨_, rfl, by decide, by decide⟩, rfl, ⟨_, rfl⟩, rfl⟩
theorem witness_label_offset :
    emitProgram Params.reference
      ([[.emit (.template (.memset 0 1))]] ++
        ([.emit (.template (.memjmp 0 1))] ++ .label "past".toList :: []) :: [[.label "end".toList]]) =
      .ok (bits [0,0,0,0,0,1, 0,1,0,0,0,0,0,1], [("past".toList, 14), ("end".toList, 14)]) := rfl
theorem witness_line_labels :
    recogniseAll [l "@.here", x ".a", x ".b"] =
      .ok [.declares "here".toList, .reference "a".toList, .reference "b".toList] ∧
    recogniseAll [l "@.past"] = .ok [.declares "past".toList] ∧
    (∃ out, evalLine Params.reference 40 (some [⟨some .memjmp, [l "@.here", x ".a", x ".b"]⟩]) [0, 1] = .ok out) ∧
    ∃ out, evalLine Params.reference 40 (some jumpLine) [0, 1] = .ok out := ⟨rfl, rfl, ⟨_, rfl⟩, ⟨_, rfl⟩⟩
/-- A label at the start of the image, and a jump that refers to it twice. -/
theorem witness_resolved :
    resolvesProgram small
      [some [⟨none, [l "@.a"]⟩], some [⟨some .memjmp, [x ".a", x ".a"]⟩, ⟨none, [l "@.b"]⟩]]
      [("a".toList, 0), ("b".toList, 4)] := ⟨bits [0,1,0,0], rfl⟩
theorem witness_failure :
    ∃ failure, assemble Params.reference [(some jumpLine, [0, 1]), (some jumpLine, [0])] = .error failure := ⟨_, rfl⟩
theorem witness_analysis :
    (∃ out, evalLine Params.reference 0 (some jumpLine) [0, 1] = .ok out) ∧
    evalLine Params.reference 7 (some [⟨none, [l "@.a"]⟩]) [] = .ok ([], [("a".toList, 7)]) ∧
    (analyseLine Params.reference (some [⟨none, [l "@.a"]⟩])).map Analysis.referenced = .ok [] := ⟨⟨_, rfl⟩, rfl, rfl⟩

end Sys2Proof.Tests
end

section
/-! SUPPORT. What a decoder hands on is well formed, and each operation that updates the state keeps the invariants of R35;
so does every instruction, and so does every step. -/

namespace Sys2Proof

/-- Whatever the bits are, the indices of a decoded instruction are in range: each comes from a field of its own width. -/
theorem decodeFrom_wf {ε : Type} {P : Params} {rd : Nat → Except ε Bit} {i : Instr} (h : decodeFrom P rd = .ok i) :
    i.wf P := by
  rw [Instr.wf_iff]
  rcases decodeFrom_cases h with ⟨n, b, rfl, -, -, hn, -⟩ | ⟨n, k, rfl, -, -, hn, hk⟩ |
    ⟨n, ix, b, rfl, -, -, hn, hix, -⟩ | ⟨n, ix, k, rfl, -, -, hn, hix, hk⟩
  · exact readField_lt hn
  · exact ⟨readField_lt hn, readField_lt hk⟩
  · exact ⟨readField_lt hn, readField_lt hix⟩
  · exact ⟨readField_lt hn, readField_lt hix, readField_lt hk⟩

end Sys2Proof

namespace Sys2Proof.Machine

/-- What a fetch gives is well formed. -/
theorem fetch_wf {s : State} {i : Instr} (h : fetch s = .ok i) : i.wf s.params := decodeFrom_wf h

variable {s t : State}

theorem setPc_wf (h : s.wf) (target : Nat) : (setPc s target).wf := by
  obtain ⟨hlegal, -, hrest⟩ := h
  exact ⟨hlegal, Nat.mod_lt _ (memSize_pos _), hrest⟩

theorem halt_wf (h : s.wf) : (halt s).wf := h

/-- A store modulo `MEMSIZE`, without the effects of the write event. -/
theorem store_wf (h : s.wf) (a : Nat) (b : Bit) :
    State.wf { s with mem := s.mem.write (a % s.params.memSize) b } := by
  obtain ⟨hlegal, hpc, hregs, ⟨hmem, hbounded⟩, hout⟩ := h
  exact ⟨hlegal, hpc, hregs,
    ⟨Memory.wf_write hmem _ _, Memory.bounded_write hbounded (Nat.mod_lt _ (memSize_pos _)) _⟩, hout⟩

/-- The buffer stays short because a full one is emptied, and the code point then emitted has `OUT_WIDTH` bits. -/
theorem outputTrigger_wf (h : s.wf) : (outputTrigger s).wf := by
  obtain ⟨hlegal, hpc, hregs, hmem, hobuf, hout⟩ := h
  rcases outputTrigger_cases s with ⟨hlen, heq⟩ | ⟨hlen, heq⟩ <;> rw [heq]
  · have hshort : (s.obuf ++ [s.mem.read outBitCell]).length < s.params.outWidth := by
      rw [List.length_append, List.length_singleton] at hlen ⊢
      omega
    exact ⟨hlegal, hpc, hregs, hmem, hshort, hout⟩
  · refine ⟨hlegal, hpc, hregs, hmem, Nat.zero_lt_of_lt hobuf, fun c hc => ?_⟩
    rcases List.mem_append.mp hc with hc | hc
    · exact hout c hc
    · rw [List.mem_singleton.mp hc, ← hlen]
      exact uint_lt _

theorem memWrite_wf (h : s.wf) (a : Nat) (b : Bit) : (memWrite s a b).wf := by
  have hstored := store_wf h a b
  rcases memWrite_cases s a b with ⟨-, -, heq⟩ | ⟨-, -, heq⟩ | ⟨-, -, heq⟩ <;> rw [heq]
  · exact halt_wf hstored
  · exact outputTrigger_wf hstored
  · exact hstored

/-- Writing a bit of a register changes neither how many registers there are nor how wide they are. -/
theorem modify_regs_wf (h : s.wf) (n i : Nat) (b : Bit) :
    State.wf { s with regs := s.regs.modify n fun bits => bits.set i b } := by
  obtain ⟨hlegal, hpc, ⟨hcount, hwidth⟩, hrest⟩ := h
  refine ⟨hlegal, hpc, ⟨(List.length_modify ..).trans hcount, fun bits hbits => ?_⟩, hrest⟩
  obtain ⟨j, hj, rfl⟩ := List.getElem_of_mem hbits
  have hold : (s.regs[j]'(by simpa using hj)).length = s.params.width := hwidth _ (List.getElem_mem _)
  rw [List.getElem_modify]
  split
  · rwa [List.length_set]
  · exact hold

/-- Every instruction keeps the invariants of R35 and the parameters. -/
theorem exec_keeps_wf {i : Instr} (hs : s.wf) (h : exec i s = .next t) : t.wf ∧ t.params = s.params := by
  cases i with
  | memset n b =>
    obtain ⟨a, -, rfl⟩ := execMemset_eq_next h
    exact ⟨setPc_wf (memWrite_wf hs a b) _, memWrite_params s a b⟩
  | memjmp n k =>
    obtain ⟨a, d, c, -, -, -, rfl⟩ := execMemjmp_eq_next h
    exact ⟨setPc_wf hs _, rfl⟩
  | regset n ix b =>
    obtain ⟨-, rfl⟩ := execRegset_eq_next h
    exact ⟨setPc_wf (modify_regs_wf hs n ix b) _, rfl⟩
  | regjmp n ix k =>
    obtain ⟨c, d, -, -, rfl⟩ := execRegjmp_eq_next h
    exact ⟨setPc_wf hs _, rfl⟩

/-- Settles O22: the step is `exec` of what was fetched, whose fields hold no index out of range, and every instruction
keeps the invariants of R35. -/
theorem stepKeepsStateInvariants : Obligations.StepKeepsStateInvariants := by
  intro s t hs h
  obtain ⟨-, i, hfetch, hexec⟩ := step_eq_next h
  obtain ⟨hwf, hparams⟩ := exec_keeps_wf hs hexec
  exact ⟨hwf, hparams, i, hfetch, fetch_wf hfetch⟩

end Sys2Proof.Machine
end

section
/-! SUPPORT. The image as a bit string: which bit of which byte stands at each offset, what packing a bit string and
unpacking it gives, and where the launch puts it (spec/20_memory.md R54, spec/30_encoding.md R84). -/

namespace Sys2Proof

/-- Zeros appended to a bit string shift its number. -/
theorem uint_append_replicate_false (bits : BitString) (k : Nat) :
    uint (bits ++ List.replicate k false) = uint bits * 2 ^ k := by
  have hzero : uint (List.replicate k false) = 0 := by
    induction k with
    | zero => rfl
    | succ k ih => rw [List.replicate_succ, uint_cons, ih, Bool.toNat_false, Nat.zero_mul]
  rw [uint_append, hzero, List.length_replicate, Nat.add_zero]

theorem bitsOf_uint_of_length {bits : BitString} {w : Nat} (h : bits.length = w) : bitsOf w (uint bits) = bits :=
  h ▸ bitsOf_uint bits

end Sys2Proof

namespace Sys2Proof.Machine

theorem imageBits_cons (byte : Byte) (image : List Byte) :
    imageBits (byte :: image) = bitsOf 8 byte.toNat ++ imageBits image := rfl

/-- Offset `i` of an image is bit `i mod 8`, counted from the most significant, of byte `i / 8`. -/
theorem imageBits_getElem? {image : List Byte} {i : Nat} (h : i < 8 * image.length) :
    (imageBits image)[i]? = some (((image.getD (i / 8) 0).toNat >>> (7 - i % 8)).testBit 0) := by
  induction image generalizing i with
  | nil => simp at h
  | cons byte image ih =>
    rw [imageBits_cons]
    rcases Nat.lt_or_ge i 8 with hi | hi
    · rw [List.getElem?_append_left (by simpa using hi), bitsOf_getElem?, if_pos hi, Nat.div_eq_of_lt hi,
        Nat.mod_eq_of_lt hi, Nat.testBit_shiftRight]
      rfl
    · obtain ⟨j, rfl⟩ := Nat.exists_eq_add_of_le' hi
      have hj : j < 8 * image.length := by rw [List.length_cons] at h; omega
      rw [List.getElem?_append_right (by simp), bitsOf_length, Nat.add_sub_cancel, ih hj,
        Nat.add_div_right j (by decide), Nat.add_mod_right, List.getD_cons_succ]

/-- A packed byte holds its group of bits from the most significant bit on, then zeros. -/
theorem bitsOf_packByte {bits : BitString} (h : bits.length ≤ 8) :
    bitsOf 8 (packByte bits).toNat = bits ++ List.replicate (8 - bits.length) false := by
  have hlen : (bits ++ List.replicate (8 - bits.length) false).length = 8 := by simp; omega
  have hlt := uint_lt (bits ++ List.replicate (8 - bits.length) false)
  rw [hlen] at hlt
  rw [packByte, ← uint_append_replicate_false, BitVec.toNat_ofNat, Nat.mod_eq_of_lt hlt, bitsOf_uint_of_length hlen]

@[simp] theorem packFuel_nil (fuel : Nat) : packFuel fuel [] = [] := by cases fuel <;> rfl

theorem packFuel_succ {bits : BitString} (h : bits ≠ []) (fuel : Nat) :
    packFuel (fuel + 1) bits = packByte (bits.take 8) :: packFuel fuel (bits.drop 8) := by
  simp [packFuel, h]

/-- With fuel for every bit, packing loses nothing and adds fewer than eight zeros. -/
theorem imageBits_packFuel {fuel : Nat} {bits : BitString} (h : bits.length ≤ fuel) :
    ∃ k < 8, imageBits (packFuel fuel bits) = bits ++ List.replicate k false := by
  induction fuel generalizing bits with
  | zero =>
    obtain rfl := List.length_eq_zero_iff.mp (Nat.le_zero.mp h)
    exact ⟨0, by decide, rfl⟩
  | succ fuel ih =>
    rcases eq_or_ne bits [] with rfl | hne
    · exact ⟨0, by decide, rfl⟩
    have hpos := List.length_pos_iff.mpr hne
    rw [packFuel_succ hne, imageBits_cons, bitsOf_packByte (List.length_take_le ..)]
    rcases Nat.lt_or_ge bits.length 8 with hshort | hlong
    · refine ⟨8 - bits.length, by omega, ?_⟩
      rw [List.take_of_length_le hshort.le, List.drop_eq_nil_of_le hshort.le, packFuel_nil]
      exact List.append_nil _
    · obtain ⟨k, hk, hrest⟩ := ih (bits := bits.drop 8) (by rw [List.length_drop]; omega)
      refine ⟨k, hk, ?_⟩
      rw [List.length_take_of_le hlong, hrest, Nat.sub_self, List.replicate_zero, List.append_nil, ← List.append_assoc,
        List.take_append_drop]

/-- A bit string packed into an image and unpacked is itself, with fewer than eight zeros after it (R54, R84). -/
theorem imageBits_packImage (bits : BitString) :
    ∃ k < 8, imageBits (packImage bits) = bits ++ List.replicate k false :=
  imageBits_packFuel le_rfl

/-- Zeros after a bit string are what lies past its end by default. -/
theorem getElem?_append_replicate_false {bits : BitString} {k o : Nat} (h : o < bits.length + k) :
    (bits ++ List.replicate k false)[o]? = some (bits.getD o false) := by
  rcases Nat.lt_or_ge o bits.length with ho | ho
  · simp [List.getElem?_append_left ho, ho]
  · rw [List.getElem?_append_right ho, List.getElem?_replicate_of_lt (by omega), List.getD_eq_default _ _ ho]

/-- After a launch the bit at offset `o` of the image is at address `3 + o`. -/
theorem launch_read_imageAddr {P : Params} {regInit : List BitString} {memInit : Memory} {image : List Byte} {s : State}
    (h : launch P regInit memInit image = .next s) {o : Nat} {b : Bit} (hb : (imageBits image)[o]? = some b) :
    s.mem.read (imageAddr o) = b := by
  obtain ⟨⟨-, -, hmem, -⟩, hfits, rfl⟩ := launch_eq_next h
  rw [launch_mem_read hmem hfits, imageAddr, if_pos (Nat.le_add_right ..), Nat.add_sub_cancel_left, hb,
    Option.getD_some]

/-- Settles O2: the launch places the unpacked image, and unpacking a packed bit string only adds zeros at its end. -/
theorem imageLoadsMostSignificantBitFirst : Obligations.ImageLoadsMostSignificantBitFirst := by
  intro P regInit memInit image s h
  refine ⟨fun i hi => launch_read_imageAddr h (imageBits_getElem? hi), ?_⟩
  rintro bits rfl
  obtain ⟨k, hk, himage⟩ := imageBits_packImage bits
  have hlen : 8 * (packImage bits).length = bits.length + k := by
    rw [← imageBits_length, himage, List.length_append, List.length_replicate]
  refine ⟨by omega, by omega, fun o ho => launch_read_imageAddr h ?_⟩
  rw [himage]
  exact getElem?_append_replicate_false (hlen ▸ ho)

end Sys2Proof.Machine
end

section
/-! SUPPORT. What a memory write does to `halted` and to the output stage (spec/20_memory.md R43 to R47), and the whole of
`MEMSET` (spec/41_memory_domain.md R120). -/

namespace Sys2Proof.Machine

variable {s t : State} {n a : Nat} {b : Bit}

/-- Every register value is an address (R36). -/
theorem regVal_mod_memSize (hs : s.wf) (ha : regVal s n = some a) : a % s.params.memSize = a := by
  obtain ⟨-, -, ⟨-, hwidth⟩, -⟩ := hs
  obtain ⟨bits, hbits, rfl⟩ := Option.map_eq_some_iff.mp ha
  apply Nat.mod_eq_of_lt
  rw [Params.memSize, ← hwidth bits (List.mem_of_getElem? hbits)]
  exact uint_lt bits

/-- A read after a store, in the memory of a well-formed state. -/
theorem read_write_of_wf (hs : s.wf) (a : Nat) (b : Bit) (x : Nat) :
    (s.mem.write a b).read x = if x = a then b else s.mem.read x := by
  obtain ⟨-, -, -, ⟨⟨hsorted, -⟩, -⟩, -⟩ := hs
  exact Memory.read_write hsorted a b x

/-- A write halts exactly when it writes 1 to address 0 (R44). -/
theorem memWrite_halted (s : State) (a : Nat) (b : Bit) :
    (memWrite s a b).halted = (s.halted || (a % s.params.memSize == haltCell && b)) := by
  rcases memWrite_cases s a b with ⟨ha, rfl, heq⟩ | ⟨ha, rfl, heq⟩ | ⟨hnot, -, heq⟩ <;> rw [heq]
  · simp [ha]
  · simp [ha, outTrigCell, haltCell]
  · have hno : (a % s.params.memSize == haltCell && b) = false := by simpa using hnot
    rw [hno, Bool.or_false]

/-- A trigger that leaves the buffer short of `OUT_WIDTH` bits only appends (R46). -/
theorem outputTrigger_of_short (s : State) (h : s.obuf.length + 1 < s.params.outWidth) :
    outputTrigger s = { s with obuf := s.obuf ++ [s.mem.read outBitCell] } := by
  rcases outputTrigger_cases s with ⟨-, heq⟩ | ⟨hlen, -⟩
  · exact heq
  · rw [List.length_append, List.length_singleton] at hlen
    exact absurd hlen h.ne

/-- A trigger that fills the buffer emits the code point and empties it (R47). -/
theorem outputTrigger_of_full (s : State) (h : s.obuf.length + 1 = s.params.outWidth) :
    outputTrigger s = { s with obuf := [], out := s.out ++ [uint (s.obuf ++ [s.mem.read outBitCell])] } := by
  rcases outputTrigger_cases s with ⟨hlen, -⟩ | ⟨-, heq⟩
  · rw [List.length_append, List.length_singleton] at hlen
    exact absurd h hlen
  · exact heq

/-- A write of 1 to address 2 is the store and then the output trigger (R46). -/
theorem memWrite_outTrigCell (ha : a % s.params.memSize = outTrigCell) :
    memWrite s a true = outputTrigger { s with mem := s.mem.write outTrigCell true } := by
  rcases memWrite_cases s a true with ⟨h0, -, -⟩ | ⟨-, -, heq⟩ | ⟨-, hnot, -⟩
  · rw [ha] at h0; cases h0
  · rw [heq, ha]
  · exact absurd ⟨ha, rfl⟩ hnot

/-- Every other write leaves the output stage alone. -/
theorem memWrite_output_frame (h : ¬(a % s.params.memSize = outTrigCell ∧ b = true)) :
    (memWrite s a b).obuf = s.obuf ∧ (memWrite s a b).out = s.out := by
  rcases memWrite_cases s a b with ⟨-, -, heq⟩ | ⟨ha, hb, -⟩ | ⟨-, -, heq⟩
  · rw [heq]; exact ⟨rfl, rfl⟩
  · exact absurd ⟨ha, hb⟩ h
  · rw [heq]; exact ⟨rfl, rfl⟩

/-- The program counter behind an instruction of `len` bits that stands at `pc`. -/
theorem setPc_lastAddr_add_one {len : Nat} (hlen : 0 < len) (hp : t.params = s.params) :
    setPc t (lastAddr s len + 1) = setPc t (s.pc + len) := by
  unfold setPc
  rw [hp, lastAddr_add_one hlen]

/-- `MEMSET` is the memory write at `val(n)` and the advance by its own length. -/
theorem exec_memset (b : Bit) (ha : regVal s n = some a) :
    exec (.memset n b) s = .next (setPc (memWrite s a b) (s.pc + (3 + s.params.r))) := by
  have hexec : exec (.memset n b) s = .next (setPc (memWrite s a b) (lastAddr s (3 + s.params.r) + 1)) := by
    simp [exec, execMemset, ha, Instr.length]
  rw [hexec, setPc_lastAddr_add_one (by omega) (memWrite_params s a b)]

theorem exec_memset_eq_next (ha : regVal s n = some a) (h : exec (.memset n b) s = .next t) :
    t = setPc (memWrite s a b) (s.pc + (3 + s.params.r)) :=
  (Host.Outcome.next.inj ((exec_memset b ha).symm.trans h)).symm

/-- `MEMSET` stores at `val(n)` and nowhere else. -/
theorem exec_memset_mem_read (hs : s.wf) (ha : regVal s n = some a) (h : exec (.memset n b) s = .next t) (x : Nat) :
    t.mem.read x = if x = a then b else s.mem.read x := by
  rw [exec_memset_eq_next ha h, setPc_mem, memWrite_mem, regVal_mod_memSize hs ha, read_write_of_wf hs]

/-- Settles O8: `MEMSET` is one memory write and the advance, and the write at an address in range is the store, with the
halt at address 0 and the output trigger at address 2. -/
theorem memsetStoresAndTriggers : Obligations.MemsetStoresAndTriggers := by
  intro s n a b hs _ ha
  have hmod := regVal_mod_memSize hs ha
  refine ⟨_, exec_memset b ha, memWrite_params s a b, memWrite_regs s a b, fun _ => ?_,
    exec_memset_mem_read hs ha (exec_memset b ha), ?_, fun h => memWrite_output_frame (hmod.symm ▸ h), ?_⟩
  · rw [setPc_pc, memWrite_params]
    congr 1
    omega
  · rw [setPc_halted, memWrite_halted, hmod, haltCell]
  · rintro rfl rfl
    have hbit : (s.mem.write outTrigCell true).read outBitCell = s.mem.read 1 := read_write_of_wf hs ..
    rw [setPc_obuf, setPc_out, memWrite_outTrigCell hmod, ← hbit]
    refine ⟨fun hshort => ?_, fun hfull => ?_⟩
    · rw [outputTrigger_of_short { s with mem := s.mem.write outTrigCell true } hshort]
      exact ⟨rfl, rfl⟩
    · rw [outputTrigger_of_full { s with mem := s.mem.write outTrigCell true } hfull]
      exact ⟨rfl, rfl⟩

end Sys2Proof.Machine
end

section
/-! SUPPORT. The halt as a rule of the whole machine (spec/20_memory.md R44, spec/60_exceptions.md R163). -/

namespace Sys2Proof.Machine

variable {s t : State}

/-- A halted machine has no step (R101). -/
theorem step_of_halted (h : s.halted = true) : step s = .fault .halted := by
  rw [step, if_pos h]; rfl

/-- Of the four instructions only a `MEMSET` of 1 at address 0 halts a running machine. -/
theorem exec_halted_iff (hs : s.wf) (hrun : s.running) {i : Instr} (h : exec i s = .next t) :
    t.halted = true ↔ ∃ n, i = .memset n true ∧ regVal s n = some 0 := by
  cases i with
  | memset n b =>
    obtain ⟨a, ha, rfl⟩ := execMemset_eq_next h
    rw [setPc_halted, memWrite_halted, hrun, regVal_mod_memSize hs ha]
    simp [ha, haltCell, and_comm]
  | memjmp n k =>
    obtain ⟨a, d, c, -, -, -, rfl⟩ := execMemjmp_eq_next h
    simp [hrun]
  | regset n ix b =>
    obtain ⟨-, rfl⟩ := execRegset_eq_next h
    simp [hrun]
  | regjmp n ix k =>
    obtain ⟨c, d, -, -, rfl⟩ := execRegjmp_eq_next h
    simp [hrun]

/-- Settles O23: only the `MEMSET` of 1 at address 0 halts, and at that address either bit is stored; a 0 there reaches
neither the halt nor the output stage. -/
theorem haltIsExactlyTheWriteOfOneToZero : Obligations.HaltIsExactlyTheWriteOfOneToZero := by
  intro s t hs h
  obtain ⟨hrun, i, hfetch, hexec⟩ := step_eq_next h
  have hhalt := exec_halted_iff hs hrun hexec
  simp only [hfetch, Except.ok.injEq]
  refine ⟨hhalt, fun ht => ⟨?_, step_of_halted ht⟩, ?_⟩
  · obtain ⟨n, rfl, ha⟩ := hhalt.mp ht
    exact exec_memset_mem_read hs ha hexec 0
  · rintro n rfl ha
    have hread := exec_memset_mem_read hs ha hexec
    obtain rfl := exec_memset_eq_next ha hexec
    refine ⟨hread 0, fun x hx => (hread x).trans (if_neg hx), memWrite_regs s 0 false, ?_,
      memWrite_output_frame (by simp)⟩
    rw [setPc_halted, memWrite_halted, hrun, Bool.and_false, Bool.or_false]

end Sys2Proof.Machine
end

section
/-! SUPPORT. Decoding is total: a source with enough bits decodes, to the format its two opcode bits select
(spec/30_encoding.md R71, R78). -/

namespace Sys2Proof

variable {ε : Type} {P : Params} {rd : Nat → Except ε Bit}

/-- A field whose bits are all known can be read. -/
theorem readField_of_known {off w : Nat} (f : Nat → Bit) (h : ∀ j < w, rd (off + j) = .ok (f j)) :
    ∃ v, readField rd off w = .ok v :=
  ⟨_, readField_eq_ok.mpr ⟨_, readBits_of_known f h, rfl⟩⟩

/-- A source known over the longest format decodes: the four pairs of opcode bits leave no case over, and each format's
fields lie within it. -/
theorem decodeFrom_of_known (f : Nat → Bit) (h : ∀ j < P.maxLength, rd j = .ok (f j)) :
    ∃ i, decodeFrom P rd = .ok i := by
  simp only [Params.maxLength, lt_max_iff] at h
  have field : ∀ off w, off + w ≤ 3 + P.r + P.m ∨ off + w ≤ 2 + 2 * P.r + P.m → ∃ v, readField rd off w = .ok v :=
    fun off w hle => readField_of_known (fun j => f (off + j)) fun j hj => h _ (by omega)
  have hd := h 0 (by omega)
  have ho := h 1 (by omega)
  obtain ⟨n, hn⟩ := field 2 P.r (by omega)
  obtain ⟨ix, hix⟩ := field (2 + P.r) P.m (by omega)
  cases hdomain : f 0 <;> cases hoperation : f 1 <;> rw [hdomain] at hd <;> rw [hoperation] at ho
  case false.false =>
    exact ⟨.memset n (f (2 + P.r)), by simp [decodeFrom, hd, ho, hn, h (2 + P.r) (by omega), bind, Except.bind]⟩
  case false.true =>
    obtain ⟨k, hk⟩ := field (2 + P.r) P.r (by omega)
    exact ⟨.memjmp n k, by simp [decodeFrom, hd, ho, hn, hk, bind, Except.bind]⟩
  case true.false =>
    exact ⟨.regset n ix (f (2 + P.r + P.m)), by
      simp [decodeFrom, hd, ho, hn, hix, h (2 + P.r + P.m) (by omega), bind, Except.bind]⟩
  case true.true =>
    obtain ⟨k, hk⟩ := field (2 + P.r + P.m) P.r (by omega)
    exact ⟨.regjmp n ix k, by simp [decodeFrom, hd, ho, hn, hix, hk, bind, Except.bind]⟩

/-- The first two bits read are the opcode of the instruction decoded. -/
theorem decodeFrom_opcode {i : Instr} (h : decodeFrom P rd = .ok i) :
    ∃ d o, i.opcode = [d, o] ∧ rd 0 = .ok d ∧ rd 1 = .ok o := by
  rcases decodeFrom_cases h with ⟨n, b, rfl, hd, ho, -⟩ | ⟨n, k, rfl, hd, ho, -⟩ | ⟨n, ix, b, rfl, hd, ho, -⟩ |
    ⟨n, ix, k, rfl, hd, ho, -⟩ <;> exact ⟨_, _, rfl, hd, ho⟩

/-- The opcode of a decoded bit string is its first two bits. -/
theorem decodeFrom_bitAt_opcode {bits : BitString} {i : Instr} (h : decodeFrom P (bitAt bits) = .ok i) :
    i.opcode = bits.take 2 := by
  obtain ⟨d, o, hop, hd, ho⟩ := decodeFrom_opcode h
  rw [bitAt_eq_ok] at hd ho
  rw [hop, List.take_add_one, List.take_add_one, hd, ho]
  rfl

/-- Settles O19: the string knows every bit the longest format can ask for, so it decodes; what decodes is well formed and
starts with its opcode. -/
theorem everyBitPatternDecodes : Obligations.EveryBitPatternDecodes := by
  intro P bits hlen
  have hbit : ∀ j < P.maxLength, bitAt bits j = .ok (bits.getD j false) := fun j hj => by
    rw [bitAt_eq_ok, List.getD_eq_getElem _ _ (hj.trans_le hlen), List.getElem?_eq_getElem]
  obtain ⟨i, hi⟩ := decodeFrom_of_known _ hbit
  have hfit : i.length P ≤ bits.length := (i.length_le_max P).trans hlen
  refine ⟨i, _, decode_eq_ok.mpr ⟨hi, rfl⟩, decodeFrom_bitAt_opcode hi, decodeFrom_wf hi, ?_⟩
  rw [List.length_drop, Nat.add_sub_cancel' hfit]

end Sys2Proof
end

section
/-! SUPPORT. What the validating encoder answers for fields that fit and for fields that do not (spec/30_encoding.md R82). -/

namespace Sys2Proof

variable {P : Params} {t : Template Int}

/-- Operands that fit are encoded. -/
theorem encodeChecked_eq_ok (h : ∀ f ∈ t.fields P, f.fits) : encodeChecked P t = .ok (encode P t.instr) := by
  rw [encodeChecked, checkFields_eq_ok h]
  rfl

/-- Otherwise nothing is emitted, and the error names a field that does not fit. -/
theorem encodeChecked_eq_error (h : ¬ ∀ f ∈ t.fields P, f.fits) :
    ∃ f ∈ t.fields P, ¬ f.fits ∧ encodeChecked P t = .error (.valueOutOfRange f.value f.width) := by
  obtain ⟨f, hmem, hfit, herr⟩ := checkFields_eq_error h
  exact ⟨f, hmem, hfit, by rw [encodeChecked, herr]; rfl⟩

/-- Well-formed instructions pass the check. -/
theorem encodeChecked_template {i : Instr} (h : i.wf P) : encodeChecked P i.template = .ok (encode P i) := by
  rw [encodeChecked_eq_ok h, Instr.instr_template]

/-- Settles O21: the encoder answers bits exactly for the operands in R82's ranges, which the instruction then holds
unchanged. -/
theorem encoderRejectsOutOfRangeFields : Obligations.EncoderRejectsOutOfRangeFields := by
  intro P t
  refine ⟨fun h => ⟨encodeChecked_eq_ok h, Template.template_instr h⟩, fun h => ?_, Template.fields_fit_iff P t,
    fun i => encodeChecked_template⟩
  obtain ⟨f, hmem, hfit, herr⟩ := encodeChecked_eq_error h
  exact ⟨f, hmem, by simpa [Field.fits] using hfit, herr⟩

end Sys2Proof
end

section
/-! SUPPORT. The composite forms as checked encodings of their expansions (spec/43_composite_set_register.md R141 to R145):
when they answer, with how many bits, and that what they emit is well formed. -/

namespace Sys2Proof

/-- A field fits exactly when its value is in `[0, 2^width)` (R82). -/
theorem Field.fits_mk {value : Int} {width : Nat} : (⟨value, width⟩ : Field).fits ↔ 0 ≤ value ∧ value < 2 ^ width := by
  simp [Field.fits]

theorem Field.fits_natCast {value width : Nat} (h : value < 2 ^ width) : (⟨value, width⟩ : Field).fits :=
  ⟨Int.natCast_nonneg value, Int.ofNat_lt.mpr h⟩

/-- A checked encoding answers its bits when every field fits. -/
theorem checked_of_fits {fs : List Field} (bits : BitString) (h : ∀ f ∈ fs, f.fits) :
    (do checkFields fs; .ok bits : Except AsmError BitString) = .ok bits := by
  rw [checkFields_eq_ok h]
  rfl

/-- Otherwise it names a field that does not fit. -/
theorem checked_of_not_fits {fs : List Field} (bits : BitString) (h : ¬ ∀ f ∈ fs, f.fits) :
    ∃ f ∈ fs, ¬ f.fits ∧
      (do checkFields fs; .ok bits : Except AsmError BitString) = .error (.valueOutOfRange f.value f.width) := by
  obtain ⟨f, hmem, hfit, herr⟩ := checkFields_eq_error h
  exact ⟨f, hmem, hfit, by rw [herr]; rfl⟩

end Sys2Proof

namespace Sys2Proof.Machine

variable {P : Params}

/-! ## The expansions -/

/-- The known form emits some of the any form's sub-instructions, in the same order (R142, R144). -/
theorem expandFromKnown_sublist (P : Params) (n init const : Nat) :
    (expandFromKnown P n init const).Sublist (expandFromAny P n const) :=
  List.filter_sublist.map _

@[simp] theorem expandFromAny_length (P : Params) (n const : Nat) : (expandFromAny P n const).length = P.width := by
  rw [expandFromAny, List.length_map, List.length_range]

/-- The known form has as many sub-instructions as the two values have differing bits. -/
theorem expandFromKnown_length (P : Params) (n init const : Nat) : (expandFromKnown P n init const).length =
    ((List.range P.width).filter fun i => constBit P init i != constBit P const i).length := by
  rw [expandFromKnown, List.length_map]

/-- No bit of a value differs from itself. -/
@[simp] theorem expandFromKnown_self (P : Params) (n const : Nat) : expandFromKnown P n const const = [] := by
  simp [expandFromKnown]

/-- Every sub-instruction is a `REGSET` of the register on one of its `W` bits. -/
theorem eq_regset_of_mem_expandFromAny {n const : Nat} {i : Instr} (h : i ∈ expandFromAny P n const) :
    ∃ ix < P.width, i = .regset n ix (constBit P const ix) := by
  obtain ⟨ix, hix, rfl⟩ := List.mem_map.mp h
  exact ⟨ix, List.mem_range.mp hix, rfl⟩

theorem expandFromAny_wf {n const : Nat} {i : Instr} (hn : n < P.regCount) (h : i ∈ expandFromAny P n const) :
    i.wf P := by
  obtain ⟨ix, hix, rfl⟩ := eq_regset_of_mem_expandFromAny h
  exact (Instr.wf_iff P _).mpr ⟨hn, hix⟩

/-- Instructions of one length are encoded in that many bits each, without gaps (R70). -/
theorem encodeAll_length {prog : List Instr} {len : Nat} (h : ∀ i ∈ prog, (encode P i).length = len) :
    (encodeAll P prog).length = prog.length * len := by
  rw [encodeAll, List.length_flatMap, List.map_congr_left h, List.map_const', List.sum_replicate, smul_eq_mul]

/-- Any selection of the any form's sub-instructions takes `3 + r + m` bits for each. -/
theorem encodeAll_length_of_sublist {n const : Nat} {prog : List Instr} (h : prog.Sublist (expandFromAny P n const)) :
    (encodeAll P prog).length = prog.length * (3 + P.r + P.m) :=
  encodeAll_length fun i hi => by
    obtain ⟨ix, -, rfl⟩ := eq_regset_of_mem_expandFromAny (h.subset hi)
    exact (Laws.EncodingShape.regset n ix _ P).1

theorem encodeAll_expandFromAny_length (P : Params) (n const : Nat) :
    (encodeAll P (expandFromAny P n const)).length = P.width * (3 + P.r + P.m) := by
  rw [encodeAll_length_of_sublist (List.Sublist.refl _), expandFromAny_length]

theorem encodeAll_expandFromKnown_length (P : Params) (n init const : Nat) :
    (encodeAll P (expandFromKnown P n init const)).length =
      (expandFromKnown P n init const).length * (3 + P.r + P.m) :=
  encodeAll_length_of_sublist (expandFromKnown_sublist P n init const)

/-! ## The range checks -/

variable {n init const : Int}

theorem setFullRegisterFromAny_eq_ok (h : (⟨n, P.r⟩ : Field).fits ∧ (⟨const, P.width⟩ : Field).fits) :
    setFullRegisterFromAny P n const = .ok (encodeAll P (expandFromAny P n.toNat const.toNat)) :=
  checked_of_fits _ (by simpa using h)

theorem setFullRegisterFromAny_eq_error (h : ¬((⟨n, P.r⟩ : Field).fits ∧ (⟨const, P.width⟩ : Field).fits)) :
    ∃ f ∈ [(⟨n, P.r⟩ : Field), ⟨const, P.width⟩], ¬ f.fits ∧
      setFullRegisterFromAny P n const = .error (.valueOutOfRange f.value f.width) :=
  checked_of_not_fits _ (by simpa using h)

theorem setFullRegisterFromKnown_eq_ok
    (h : (⟨n, P.r⟩ : Field).fits ∧ (⟨init, P.width⟩ : Field).fits ∧ (⟨const, P.width⟩ : Field).fits) :
    setFullRegisterFromKnown P n init const =
      .ok (encodeAll P (expandFromKnown P n.toNat init.toNat const.toNat)) :=
  checked_of_fits _ (by simpa using h)

theorem setFullRegisterFromKnown_eq_error
    (h : ¬((⟨n, P.r⟩ : Field).fits ∧ (⟨init, P.width⟩ : Field).fits ∧ (⟨const, P.width⟩ : Field).fits)) :
    ∃ f ∈ [(⟨n, P.r⟩ : Field), ⟨init, P.width⟩, ⟨const, P.width⟩], ¬ f.fits ∧
      setFullRegisterFromKnown P n init const = .error (.valueOutOfRange f.value f.width) :=
  checked_of_not_fits _ (by simpa using h)

/-- The result of the subtraction is a remainder modulo `2^W`, so it fits `W` bits (R143). -/
theorem differenceConst_fits (P : Params) (a b : Int) : (⟨differenceConst P a b, P.width⟩ : Field).fits := by
  have hpos : (0 : Int) < (2 ^ P.width : Nat) := by positivity
  exact Field.fits_natCast ((Int.toNat_lt (Int.emod_nonneg _ hpos.ne')).mpr (Int.emod_lt_of_pos _ hpos))

/-- A register index that fits its field names one of the `2^r` registers. -/
theorem toNat_lt_regCount (h : (⟨n, P.r⟩ : Field).fits) : n.toNat < P.regCount :=
  (Int.toNat_lt h.1).mpr h.2

/-- Settles O35: each form is a checked encoding of a selection of well-formed `REGSET`s, and the difference constant is a
field that always fits. -/
theorem compositeRangeChecks : Obligations.CompositeRangeChecks := by
  intro P n init const a b
  have hdiff := differenceConst_fits P a b
  simp only [← Field.fits_mk]
  refine ⟨fun ⟨hn, hconst⟩ => ⟨⟨_, setFullRegisterFromAny_eq_ok ⟨hn, hconst⟩⟩, fun i hi => ?_⟩,
    setFullRegisterFromAny_eq_error, fun ⟨hn, hconsts⟩ => ⟨⟨_, setFullRegisterFromKnown_eq_ok ⟨hn, hconsts⟩⟩, fun i hi => ?_⟩,
    setFullRegisterFromKnown_eq_error, fun hn => ⟨_, setFullRegisterFromAny_eq_ok ⟨hn, hdiff⟩⟩, fun hn => ?_,
    fun ⟨hn, hinit⟩ => ⟨_, setFullRegisterFromKnown_eq_ok ⟨hn, hinit, hdiff⟩⟩, fun h => ?_⟩
  · exact encodeChecked_template (expandFromAny_wf (toNat_lt_regCount hn) hi)
  · exact encodeChecked_template (expandFromAny_wf (toNat_lt_regCount hn) ((expandFromKnown_sublist ..).subset hi))
  · obtain ⟨f, hmem, hfit, herr⟩ := setFullRegisterFromAny_eq_error (const := differenceConst P a b) (mt And.left hn)
    rcases List.mem_pair.mp hmem with rfl | rfl
    · exact herr
    · exact absurd hdiff hfit
  · obtain ⟨f, hmem, hfit, herr⟩ :=
      setFullRegisterFromKnown_eq_error (const := differenceConst P a b) fun ⟨hn, hinit, _⟩ => h ⟨hn, hinit⟩
    refine ⟨f, ?_, hfit, herr⟩
    have hne : f ≠ ⟨differenceConst P a b, P.width⟩ := fun heq => hfit (heq ▸ hdiff)
    simpa [hne] using hmem

end Sys2Proof.Machine
end

section
/-! SUPPORT. A sub-encoding that emits nothing moves no offset (spec/43_composite_set_register.md R147). -/

namespace Sys2Proof.Machine

/-- A zero-length sub-encoding leaves the pieces after it as they are. -/
theorem emitPieces_emit_nil {P : Params} {line : SourceLine Int} (h : encodeLine P line = .ok []) (start : Nat)
    (rest : List (Piece Int)) : emitPieces P start (.emit line :: rest) = emitPieces P start rest := by
  simp only [emitPieces, h, bind, Except.bind]
  cases emitPieces P start rest <;> simp

/-- A line and then the lines after it, from past the line's bits. -/
theorem evalLines_cons_eq_ok {α : Type} {eval : Nat → α → Except AsmError (BitString × LabelTable)} {start number : Nat}
    {line : α} {rest : List α} {bits more : BitString} {table table' : LabelTable}
    (hline : eval start line = .ok (bits, table))
    (hrest : evalLines eval (start + bits.length) (number + 1) rest = .ok (more, table')) :
    evalLines eval start number (line :: rest) = .ok (bits ++ more, table ++ table') := by
  simp only [evalLines, hline, hrest, bind, Except.bind]

/-- Settles O34: no bit of `const` differs from itself, so the known form expands to nothing; the any form expands to a
`REGSET` for each of the `2^m` bits. -/
theorem equalInitEmitsNothing : Obligations.EqualInitEmitsNothing := by
  intro P n const _ hn hconst
  have hnfit : (⟨n, P.r⟩ : Field).fits := Field.fits_natCast hn
  have hcfit : (⟨const, P.width⟩ : Field).fits := Field.fits_natCast hconst
  have hempty : setFullRegisterFromKnown P n const const = .ok [] := by
    rw [setFullRegisterFromKnown_eq_ok ⟨hnfit, hcfit, hcfit⟩, expandFromKnown_self]
    rfl
  refine ⟨hempty, fun s => ?_, fun name start number rest bits table hrest => ?_,
    _, setFullRegisterFromAny_eq_ok ⟨hnfit, hcfit⟩, ?_⟩
  · rw [expandFromKnown_self]
    rfl
  · have hline : emitPieces P start [.label name, .emit (.setFromKnown n const const)] = .ok ([], [(name, start)]) := by
      rw [emitPieces, emitPieces_emit_nil (line := .setFromKnown n const const) hempty]
      rfl
    exact evalLines_cons_eq_ok hline hrest
  · rw [← List.length_pos_iff, encodeAll_expandFromAny_length]
    exact Nat.mul_pos (Nat.two_pow_pos P.m) (by omega)

end Sys2Proof.Machine
end

section
/-! SUPPORT. The size ranges of the composite forms (spec/43_composite_set_register.md R146). -/

namespace Sys2Proof.Machine

variable {P : Params}

/-- With any input of the any form unknown the range is the conservative one. -/
theorem compositeSizeRange_any_of_none {n const : Option Int} (h : n = none ∨ const = none) :
    compositeSizeRange P n .any const = (0, P.width * (3 + P.r + P.m)) := by
  rcases h with rfl | rfl
  · rfl
  · cases n <;> rfl

/-- With any input of the known form unknown, likewise. -/
theorem compositeSizeRange_known_of_none {n init const : Option Int} (h : n = none ∨ init = none ∨ const = none) :
    compositeSizeRange P n (.known init) const = (0, P.width * (3 + P.r + P.m)) := by
  rcases h with rfl | rfl | rfl
  · rfl
  · cases n <;> rfl
  · cases n <;> cases init <;> rfl

/-- The difference is unknown while an operand is. -/
theorem differenceOperand_of_none {a b : Option Int} (h : a = none ∨ b = none) : differenceOperand P a b = none := by
  rcases h with rfl | rfl
  · rfl
  · cases a <;> rfl

/-- What the any form emits has the size of its range. -/
theorem setFullRegisterFromAny_size {n const : Int} {bits : BitString} (h : setFullRegisterFromAny P n const = .ok bits) :
    compositeSizeRange P (some n) .any (some const) = (bits.length, bits.length) ∧
      bits.length = P.width * (3 + P.r + P.m) := by
  obtain ⟨-, rfl⟩ := checked_eq_ok h
  rw [encodeAll_expandFromAny_length]
  exact ⟨rfl, rfl⟩

/-- What the known form emits has the size of its range: `3 + r + m` bits for each sub-instruction. -/
theorem setFullRegisterFromKnown_size {n init const : Int} {bits : BitString}
    (h : setFullRegisterFromKnown P n init const = .ok bits) :
    compositeSizeRange P (some n) (.known (some init)) (some const) = (bits.length, bits.length) ∧
      bits.length = (expandFromKnown P n.toNat init.toNat const.toNat).length * (3 + P.r + P.m) := by
  obtain ⟨-, rfl⟩ := checked_eq_ok h
  rw [encodeAll_expandFromKnown_length]
  exact ⟨rfl, rfl⟩

/-- Settles O36: concrete inputs give the length of the encoded expansion, which for the known form is a selection of the any
form's; an unknown input, or an unknown operand of the subtraction, gives the conservative range. -/
theorem compositeSizesLieInRange : Obligations.CompositeSizesLieInRange := by
  intro P n init const n? init? const? a? b?
  refine ⟨fun bits => setFullRegisterFromAny_size, fun bits h => ?_, compositeSizeRange_any_of_none,
    compositeSizeRange_known_of_none, fun h => ?_, fun h => ?_⟩
  · obtain ⟨hrange, hlen⟩ := setFullRegisterFromKnown_size h
    have hle := (expandFromKnown_sublist P n.toNat init.toNat const.toNat).length_le
    rw [expandFromAny_length] at hle
    exact ⟨hrange, by rw [hlen, expandFromKnown_length], hlen ▸ Nat.mul_le_mul_right _ hle⟩
  · exact compositeSizeRange_any_of_none (h.imp_right differenceOperand_of_none)
  · exact compositeSizeRange_known_of_none (h.imp_right (Or.imp_right differenceOperand_of_none))

end Sys2Proof.Machine
end

section
/-! SUPPORT. Decoding and encoding are one relation: a source of bits decodes to `i` exactly when `i` is well formed and the
source reads the encoding of `i` (spec/30_encoding.md R71 to R80, R83). -/

namespace Sys2Proof

variable {ε : Type} {P : Params} {rd : Nat → Except ε Bit} {off w v : Nat} {i : Instr}

/-- The source reads just these bits at the offsets `off`, `off + 1`, …. -/
def Reads (rd : Nat → Except ε Bit) (off : Nat) (bits : BitString) : Prop :=
  readBits rd off bits.length = .ok bits

theorem reads_iff {bits : BitString} : Reads rd off bits ↔ ∀ j (h : j < bits.length), rd (off + j) = .ok bits[j] := by
  rw [Reads, readBits_eq_ok]
  exact and_iff_right rfl

@[simp] theorem reads_nil : Reads rd off [] ↔ True := iff_true_intro rfl

@[simp] theorem reads_cons {b : Bit} {bits : BitString} :
    Reads rd off (b :: bits) ↔ rd off = .ok b ∧ Reads rd (off + 1) bits := by
  simp only [reads_iff, List.length_cons]
  constructor
  · intro h
    exact ⟨h 0 (by omega), fun j hj => Nat.add_right_comm off j 1 ▸ h (j + 1) (by omega)⟩
  · rintro ⟨h0, h⟩ (_ | j) hj
    · exact h0
    · exact (congrArg rd (by omega)).trans (h j (by omega))

@[simp] theorem reads_append {as bs : BitString} :
    Reads rd off (as ++ bs) ↔ Reads rd off as ∧ Reads rd (off + as.length) bs := by
  induction as generalizing off with
  | nil => simp
  | cons a as ih => rw [List.cons_append, reads_cons, ih, reads_cons, List.length_cons, and_assoc, Nat.add_right_comm,
      Nat.add_assoc off]

/-- A field reads as `v` exactly when `v` fits it and its bits are those of `v`. -/
theorem readField_eq_ok_iff : readField rd off w = .ok v ↔ v < 2 ^ w ∧ Reads rd off (bitsOf w v) := by
  rw [Reads, bitsOf_length, readField_eq_ok]
  constructor
  · rintro ⟨bits, hbits, rfl⟩
    obtain ⟨rfl, -⟩ := readBits_eq_ok.mp hbits
    exact ⟨uint_lt bits, by rw [bitsOf_uint, hbits]⟩
  · rintro ⟨hlt, hbits⟩
    exact ⟨_, hbits, uint_bitsOf hlt⟩

/-- A source decodes to an instruction exactly when the format's bits and fields read as the instruction's. -/
theorem decodeFrom_eq_ok : decodeFrom P rd = .ok i ↔ match i with
    | .memset n b => rd 0 = .ok false ∧ rd 1 = .ok false ∧ readField rd 2 P.r = .ok n ∧ rd (2 + P.r) = .ok b
    | .memjmp n k => rd 0 = .ok false ∧ rd 1 = .ok true ∧ readField rd 2 P.r = .ok n ∧
        readField rd (2 + P.r) P.r = .ok k
    | .regset n ix b => rd 0 = .ok true ∧ rd 1 = .ok false ∧ readField rd 2 P.r = .ok n ∧
        readField rd (2 + P.r) P.m = .ok ix ∧ rd (2 + P.r + P.m) = .ok b
    | .regjmp n ix k => rd 0 = .ok true ∧ rd 1 = .ok true ∧ readField rd 2 P.r = .ok n ∧
        readField rd (2 + P.r) P.m = .ok ix ∧ readField rd (2 + P.r + P.m) P.r = .ok k := by
  constructor
  · intro h
    rcases decodeFrom_cases h with ⟨n, b, rfl, hrd⟩ | ⟨n, k, rfl, hrd⟩ | ⟨n, ix, b, rfl, hrd⟩ | ⟨n, ix, k, rfl, hrd⟩ <;>
      exact hrd
  · cases i with
    | memset n b => rintro ⟨hd, ho, hn, hb⟩; simp [decodeFrom, hd, ho, hn, hb, bind, Except.bind]
    | memjmp n k => rintro ⟨hd, ho, hn, hk⟩; simp [decodeFrom, hd, ho, hn, hk, bind, Except.bind]
    | regset n ix b => rintro ⟨hd, ho, hn, hix, hb⟩; simp [decodeFrom, hd, ho, hn, hix, hb, bind, Except.bind]
    | regjmp n ix k => rintro ⟨hd, ho, hn, hix, hk⟩; simp [decodeFrom, hd, ho, hn, hix, hk, bind, Except.bind]

/-- The decoder inverts the encoder on every source of bits. -/
theorem decodeFrom_eq_ok_iff_reads : decodeFrom P rd = .ok i ↔ i.wf P ∧ Reads rd 0 (encode P i) := by
  rw [decodeFrom_eq_ok, Instr.wf_iff]
  cases i <;>
    simp only [encode, Instr.opcode, readField_eq_ok_iff, reads_append, reads_cons, reads_nil, bitsOf_length,
      List.length_cons, List.length_nil, Params.regCount, Params.width, Nat.zero_add, and_true] <;>
    tauto

theorem encode_length (P : Params) (i : Instr) : (encode P i).length = i.length P := by
  cases i with
  | memset n b => exact (Laws.EncodingShape.memset n b P).1
  | memjmp n k => exact (Laws.EncodingShape.memjmp n k P).1
  | regset n ix b => exact (Laws.EncodingShape.regset n ix b P).1
  | regjmp n ix k => exact (Laws.EncodingShape.regjmp n ix k P).1

/-- A bit string reads the bits it starts with. -/
theorem reads_bitAt {bits front : BitString} : Reads (bitAt bits) 0 front ↔ front <+: bits := by
  simp only [reads_iff, Nat.zero_add, bitAt_eq_ok, List.prefix_iff_getElem?]

/-- What decodes, with which bits left over: the encodings of the well-formed instructions. -/
theorem decode_eq_ok_iff_encode {bits rest : BitString} :
    decode P bits = .ok (i, rest) ↔ i.wf P ∧ bits = encode P i ++ rest := by
  rw [decode_eq_ok, decodeFrom_eq_ok_iff_reads, reads_bitAt, ← encode_length, and_assoc]
  refine and_congr_right fun _ => ⟨?_, ?_⟩
  · rintro ⟨⟨tail, rfl⟩, rfl⟩
    rw [List.drop_left]
  · rintro rfl
    exact ⟨List.prefix_append .., List.drop_left.symm⟩

/-- Settles O17: the encoding is read back field by field, and nothing after it is read. -/
theorem decodeOfEncodeIsIdentity : Obligations.DecodeOfEncodeIsIdentity :=
  fun _ _ _ hwf => decode_eq_ok_iff_encode.mpr ⟨hwf, rfl⟩

/-- Settles O18: every bit a decode reads is a bit of the encoding. -/
theorem encodeOfDecodeIsIdentity : Obligations.EncodeOfDecodeIsIdentity :=
  fun _ _ _ _ h => (decode_eq_ok_iff_encode.mp h).symm

/-- Settles O20: the decoder, run on the four words. -/
theorem specExampleWordsDecode : Obligations.SpecExampleWordsDecode :=
  ⟨rfl, rfl, rfl, rfl⟩

end Sys2Proof
end

section
/-! SUPPORT. The fetch as reads of memory (spec/40_execution_loop.md R102, R112): what it gives when every bit can be read,
and that its one failure is the read of address 2 (spec/20_memory.md R42, U1). -/

namespace Sys2Proof

variable {ε α β : Type} {P : Params} {rd : Nat → Except ε Bit} {e : ε}

/-- A sequence answers what its second part answers for the first part's answer. -/
theorem bind_eq_ok {x : Except ε α} {f : α → Except ε β} {b : β} :
    (x >>= f) = .ok b ↔ ∃ a, x = .ok a ∧ f a = .ok b := by
  cases x <;> simp [bind, Except.bind]

/-- A sequence fails in its first part or, after that, in its second. -/
theorem bind_eq_error {x : Except ε α} {f : α → Except ε β} :
    (x >>= f) = .error e ↔ x = .error e ∨ ∃ a, x = .ok a ∧ f a = .error e := by
  cases x <;> simp [bind, Except.bind]

/-- A sequence goes on with the answer of its first part. -/
theorem ok_bind (a : α) (f : α → Except ε β) : (Except.ok a >>= f) = f a := rfl

theorem readBits_eq_error {off w : Nat} (h : readBits rd off w = .error e) : ∃ j, rd j = .error e := by
  induction w generalizing off with
  | zero => cases h
  | succ w ih =>
    rcases bind_eq_error.mp h with h | ⟨b, -, h⟩
    · exact ⟨_, h⟩
    rcases bind_eq_error.mp h with h | ⟨bs, -, h⟩
    · exact ih h
    · cases h

theorem readField_eq_error {off w : Nat} (h : readField rd off w = .error e) : ∃ j, rd j = .error e := by
  rcases bind_eq_error.mp h with h | ⟨bits, -, h⟩
  · exact readBits_eq_error h
  · cases h

/-- A decode fails only where its source does (R78: no encoding is illegal). -/
theorem decodeFrom_eq_error (h : decodeFrom P rd = .error e) : ∃ j, rd j = .error e := by
  rcases bind_eq_error.mp h with h | ⟨d, -, h⟩
  · exact ⟨_, h⟩
  rcases bind_eq_error.mp h with h | ⟨o, -, h⟩
  · exact ⟨_, h⟩
  rcases bind_eq_error.mp h with h | ⟨n, -, h⟩
  · exact readField_eq_error h
  cases d <;> cases o <;> rcases bind_eq_error.mp h with h | ⟨x, -, h⟩
  case false.false.inl => exact ⟨_, h⟩
  case false.false.inr => cases h
  case false.true.inl => exact readField_eq_error h
  case false.true.inr => cases h
  case true.false.inl => exact readField_eq_error h
  case true.false.inr =>
    rcases bind_eq_error.mp h with h | ⟨y, -, h⟩
    · exact ⟨_, h⟩
    · cases h
  case true.true.inl => exact readField_eq_error h
  case true.true.inr =>
    rcases bind_eq_error.mp h with h | ⟨y, -, h⟩
    · exact readField_eq_error h
    · cases h

end Sys2Proof

namespace Sys2Proof.Machine

variable {s t : State} {i : Instr}

/-- A fetch gives `i` exactly when memory from `pc` upward can be read and holds the encoding of `i`. -/
theorem fetch_eq_ok : fetch s = .ok i ↔ i.wf s.params ∧ Reads (fun j => memRead s (s.pc + j)) 0 (encode s.params i) :=
  decodeFrom_eq_ok_iff_reads

/-- A fetch fails only by an undefined read. -/
theorem fetch_eq_error {e : Fault} (h : fetch s = .error e) : e = .undefinedRead := by
  obtain ⟨j, hj⟩ := decodeFrom_eq_error h
  exact (memRead_eq_error.mp hj).2

/-- A running machine steps by the instruction it fetches. -/
theorem step_of_fetch (hrun : s.running) (h : fetch s = .ok i) : step s = exec i s := by
  rw [step, hrun, h]
  rfl

/-- Settles O5: the readable bits are the encoding of what they decode to, so the fetch gives that instruction. -/
theorem stepRunsDecodedInstruction : Obligations.StepRunsDecodedInstruction := by
  intro s i bits hrun hdecode hread
  obtain ⟨hwf, rfl⟩ := decode_eq_ok_iff_encode.mp hdecode
  refine step_of_fetch hrun (fetch_eq_ok.mpr ⟨hwf, reads_iff.mpr fun j hj => ?_⟩)
  simpa using hread j (by simpa using hj)

theorem storedBits_getElem? {len j : Nat} (h : j < len) :
    (s.storedBits len)[j]? = some (s.mem.read ((s.pc + j) % s.params.memSize)) := by
  simp [State.storedBits, h]

/-- Where the stored bits start with an encoding, a fetch can read it exactly when it avoids address 2. -/
theorem reads_encode_iff {len : Nat} (hlen : i.length s.params ≤ len) (h : encode s.params i <+: s.storedBits len) :
    Reads (fun j => memRead s (s.pc + j)) 0 (encode s.params i) ↔ s.fetchAvoidsTrigger (i.length s.params) := by
  rw [List.prefix_iff_getElem?] at h
  simp only [reads_iff, memRead_eq_ok, Nat.zero_add, encode_length]
  refine forall₂_congr fun j hj => and_iff_left ?_
  have hj' := h j (encode_length s.params i ▸ hj)
  rw [storedBits_getElem? (hj.trans_le hlen)] at hj'
  exact Option.some.inj hj'

/-- What a fetch gives is what the stored bits decode to. -/
theorem decode_storedBits_of_fetch (h : fetch s = .ok i) :
    decodeFrom s.params (bitAt (s.storedBits s.params.maxLength)) = .ok i := by
  refine decodeFrom_transfer h fun j b hj hb => ?_
  rw [bitAt_eq_ok, storedBits_getElem? (hj.trans_le (i.length_le_max _)), (memRead_eq_ok.mp hb).2]

/-- Settles O6: the fetch reads exactly the bits of the encoding that stands at `pc`; if one of them is at address 2 it can give
no instruction, since that would have to be the one stored, and its only failure is the undefined read. -/
theorem fetchFaultsExactlyOnAddressTwo : Obligations.FetchFaultsExactlyOnAddressTwo := by
  intro s i rest h
  obtain ⟨hwf, hbits⟩ := decode_eq_ok_iff_encode.mp h
  have hreads := reads_encode_iff (i.length_le_max s.params) ⟨rest, hbits.symm⟩
  refine ⟨fun havoids => fetch_eq_ok.mpr ⟨hwf, hreads.mpr havoids⟩, fun htouches => ?_⟩
  cases hfetch : fetch s with
  | error e => rw [fetch_eq_error hfetch]
  | ok i' =>
    obtain rfl : i' = i :=
      Except.ok.inj ((decode_storedBits_of_fetch hfetch).symm.trans (decode_eq_ok.mp h).1)
    exact absurd (hreads.mp (fetch_eq_ok.mp hfetch).2) htouches

end Sys2Proof.Machine
end

section
/-! SUPPORT. The two conditional jumps (spec/40_execution_loop.md R103 to R107, spec/41_memory_domain.md R121,
spec/42_register_domain.md R131): where they lead, and what a displacement that wraps around does. -/

namespace Sys2Proof.Machine

variable {s t : State} {n i k a d : Nat} {c : Bit}

/-- Only `pc` differs after a jump, so two targets that agree modulo `MEMSIZE` give one state. -/
theorem setPc_congr {u v : Nat} (h : u % s.params.memSize = v % s.params.memSize) : setPc s u = setPc s v := by
  rw [setPc, setPc, h]

/-- An advance from the last bit of an instruction of `len + 1` bits (R103). -/
theorem setPc_lastAddr_add (s : State) (len x : Nat) : setPc s (lastAddr s (len + 1) + x) = setPc s (s.pc + len + x) :=
  setPc_congr (Nat.mod_add_mod ..)

/-- `MEMJMP` once its condition has been read. -/
theorem exec_memjmp (ha : regVal s n = some a) (hd : regVal s k = some d) (hc : memRead s a = .ok c) :
    exec (.memjmp n k) s = .next (setPc s (lastAddr s (2 + 2 * s.params.r) + if c then d else 1)) := by
  simp [exec, execMemjmp, ha, hd, hc, Instr.length]

theorem exec_memjmp_undefined (ha : regVal s n = some a) (hd : regVal s k = some d)
    (hc : memRead s a = .error .undefinedRead) : exec (.memjmp n k) s = .fault .undefinedRead := by
  simp [exec, execMemjmp, ha, hd, hc]

theorem exec_regjmp (hc : regBit s n i = some c) (hd : regVal s k = some d) :
    exec (.regjmp n i k) s =
      .next (setPc s (lastAddr s (2 + 2 * s.params.r + s.params.m) + if c then d else 1)) := by
  simp [exec, execRegjmp, hc, hd, Instr.length]

/-- The bit a register points at can be read unless it is the output trigger cell (R42). -/
theorem memRead_of_regVal (hs : s.wf) (ha : regVal s n = some a) (h2 : a ≠ 2) : memRead s a = .ok (s.mem.read a) := by
  rw [memRead_eq_ok, regVal_mod_memSize hs ha]
  exact ⟨h2, rfl⟩

theorem memRead_two (hs : s.wf) (ha : regVal s n = some 2) : memRead s 2 = .error .undefinedRead :=
  memRead_eq_error.mpr ⟨regVal_mod_memSize hs ha, rfl⟩

/-- Settles O10: the tested bit is the stored one, and `2 + 2r` bits end `1 + 2r` above `pc`. -/
theorem memjmpAdvancesFromItsLastBit : Obligations.MemjmpAdvancesFromItsLastBit := by
  intro s n k a d hs _ _ ha hd
  refine ⟨fun h2 => ?_, ?_⟩
  · rw [exec_memjmp ha hd (memRead_of_regVal hs ha h2), show 2 + 2 * s.params.r = 1 + 2 * s.params.r + 1 by omega,
      setPc_lastAddr_add, ← Nat.add_assoc s.pc]
    rfl
  · rintro rfl
    exact exec_memjmp_undefined ha hd (memRead_two hs ha)

/-- Settles O12: `2 + 2r + m` bits end `1 + 2r + m` above `pc`. -/
theorem regjmpAdvancesFromItsLastBit : Obligations.RegjmpAdvancesFromItsLastBit := by
  intro s n i k d c _ _ _ _ hc hd
  rw [exec_regjmp hc hd, show 2 + 2 * s.params.r + s.params.m = 1 + 2 * s.params.r + s.params.m + 1 by omega,
    setPc_lastAddr_add, ← Nat.add_assoc s.pc, ← Nat.add_assoc s.pc]
  rfl

/-- The displacement `MEMSIZE - d` goes back by `d` (R106): the sum passes `MEMSIZE` once. -/
theorem setPc_add_memSize_sub {last : Nat} (hlast : last < s.params.memSize) (hpos : 0 < d) (hd : d ≤ last) :
    setPc s (last + (s.params.memSize - d)) = { s with pc := last - d } := by
  have hsum : last + (s.params.memSize - d) = last - d + s.params.memSize := by omega
  rw [setPc, hsum, Nat.add_mod_right, Nat.mod_eq_of_lt (by omega)]

/-- Settles O28: a taken jump adds the displacement to the address of its last bit. -/
theorem backwardJumpByModularDisplacement : Obligations.BackwardJumpByModularDisplacement := by
  intro s n i k d a hs _ _ _ hpos hd
  refine ⟨fun hc hle => ?_, fun ha h2 hbit hle => ?_⟩
  · rw [exec_regjmp hc hd, if_pos rfl, setPc_add_memSize_sub (lastAddr_lt ..) hpos hle]
  · rw [exec_memjmp ha hd (memRead_of_regVal hs ha h2), hbit, if_pos rfl,
      setPc_add_memSize_sub (lastAddr_lt ..) hpos hle]

/-- From the last bit of `len + 1` bits the displacement `MEMSIZE - len` leads to the first (R107). -/
theorem setPc_lastAddr_add_memSize_sub {len : Nat} (hs : s.wf) (hlen : len ≤ s.params.memSize) :
    setPc s (lastAddr s (len + 1) + (s.params.memSize - len)) = s := by
  obtain ⟨-, hpc, -⟩ := hs
  have hsum : s.pc + len + (s.params.memSize - len) = s.pc + s.params.memSize := by omega
  rw [setPc_lastAddr_add, hsum, setPc, Nat.add_mod_right, Nat.mod_eq_of_lt hpc]

/-- Settles O29: the jump is taken and leads to its own first bit. -/
theorem selfJumpNeverLeaves : Obligations.SelfJumpNeverLeaves := by
  intro s n i k a hs hrun
  refine ⟨fun hfetch hc hlen hd => ?_, fun hfetch ha h2 hbit hlen hd => ?_⟩
  · rw [step_of_fetch hrun hfetch, exec_regjmp hc hd, if_pos rfl,
      show 2 + 2 * s.params.r + s.params.m = 1 + 2 * s.params.r + s.params.m + 1 by omega,
      setPc_lastAddr_add_memSize_sub hs hlen]
  · rw [step_of_fetch hrun hfetch, exec_memjmp ha hd (memRead_of_regVal hs ha h2), hbit, if_pos rfl,
      show 2 + 2 * s.params.r = 1 + 2 * s.params.r + 1 by omega, setPc_lastAddr_add_memSize_sub hs hlen]

/-- Settles O16: both jumps are an update of `pc`. -/
theorem jumpFrame : Obligations.JumpFrame := by
  rintro s t i (⟨n, k, rfl⟩ | ⟨n, j, k, rfl⟩) h
  · obtain ⟨a, d, c, -, -, -, rfl⟩ := execMemjmp_eq_next h
    exact ⟨rfl, rfl, fun _ => rfl, rfl, rfl, rfl, rfl⟩
  · obtain ⟨c, d, -, -, rfl⟩ := execRegjmp_eq_next h
    exact ⟨rfl, rfl, fun _ => rfl, rfl, rfl, rfl, rfl⟩

end Sys2Proof.Machine
end

section
/-! SUPPORT. `REGSET` (spec/42_register_domain.md R130): the one register bit it writes. -/

namespace Sys2Proof.Machine

variable {s t : State} {n i v : Nat} {b c : Bit}

/-- `REGSET` where the bit exists. -/
theorem exec_regset (b : Bit) (hc : regBit s n i = some c) :
    exec (.regset n i b) s = .next (setPc { s with regs := s.regs.modify n fun bits => bits.set i b }
      (s.pc + (3 + s.params.r + s.params.m))) := by
  have hexec : exec (.regset n i b) s = .next (setPc { s with regs := s.regs.modify n fun bits => bits.set i b }
      (lastAddr s (3 + s.params.r + s.params.m) + 1)) := by
    simp [exec, execRegset, setRegBit_of_regBit b hc, Instr.length]
  exact hexec.trans (congrArg Host.Outcome.next (setPc_lastAddr_add_one (by omega) rfl))

theorem exec_regset_regs (h : exec (.regset n i b) s = .next t) :
    t.regs = s.regs.modify n fun bits => bits.set i b := by
  obtain ⟨-, rfl⟩ := execRegset_eq_next h
  rfl

/-- Nothing but the register and `pc` changes. -/
theorem exec_regset_frame (h : exec (.regset n i b) s = .next t) :
    t.params = s.params ∧ t.mem = s.mem ∧ t.halted = s.halted ∧ t.obuf = s.obuf ∧ t.out = s.out := by
  obtain ⟨-, rfl⟩ := execRegset_eq_next h
  exact ⟨rfl, rfl, rfl, rfl, rfl⟩

theorem exec_regset_getElem?_ne (h : exec (.regset n i b) s = .next t) {n' : Nat} (hn : n' ≠ n) :
    t.regs[n']? = s.regs[n']? := by
  rw [exec_regset_regs h, List.getElem?_modify_ne _ _ hn.symm]

/-- A register's bits after the write of one of them. -/
theorem exec_regset_getElem? (h : exec (.regset n i b) s = .next t) :
    t.regs[n]? = s.regs[n]?.map fun bits => bits.set i b := by
  rw [exec_regset_regs h, List.getElem?_modify_eq]
  rfl

theorem exec_regset_regBit (h : exec (.regset n i b) s = .next t) : regBit t n i = some b := by
  obtain ⟨⟨c, hc⟩, -⟩ := execRegset_eq_next h
  obtain ⟨bits, hbits, hbit⟩ := Option.bind_eq_some_iff.mp hc
  rw [regBit, exec_regset_getElem? h, hbits]
  exact List.getElem?_set_self (List.getElem?_eq_some_iff.mp hbit).1

/-- Every other bit of every register stays. -/
theorem exec_regset_regBit_ne (h : exec (.regset n i b) s = .next t) {n' i' : Nat} (hne : ¬(n' = n ∧ i' = i)) :
    regBit t n' i' = regBit s n' i' := by
  rcases eq_or_ne n' n with rfl | hn
  · have hi : i ≠ i' := fun hi => hne ⟨rfl, hi.symm⟩
    rw [regBit, regBit, exec_regset_getElem? h]
    cases s.regs[n']? with
    | none => rfl
    | some bits => exact List.getElem?_set_ne hi
  · rw [regBit, regBit, exec_regset_getElem?_ne h hn]

/-- The register's value gains or loses the weight of the bit. -/
theorem exec_regset_regVal (hs : s.wf) (h : exec (.regset n i b) s = .next t) (hc : regBit s n i = some c)
    (hv : regVal s n = some v) : ∃ v', regVal t n = some v' ∧
      v' + c.toNat * 2 ^ (s.params.width - 1 - i) = v + b.toNat * 2 ^ (s.params.width - 1 - i) := by
  obtain ⟨-, -, ⟨-, hwidth⟩, -⟩ := hs
  obtain ⟨bits, hbits, hbit⟩ := Option.bind_eq_some_iff.mp hc
  have hvbits : uint bits = v := by simpa [regVal, hbits] using hv
  refine ⟨uint (bits.set i b), by rw [regVal, exec_regset_getElem? h, hbits]; rfl, ?_⟩
  rw [← hwidth bits (List.mem_of_getElem? hbits), uint_set bits i b c hbit, hvbits]

/-- Settles O11: one bit of the register list is replaced, and everything else but `pc` is untouched. -/
theorem regsetWritesOneBit : Obligations.RegsetWritesOneBit := by
  intro s n i v b c hs _ _ hc hv
  have h := exec_regset b hc
  refine ⟨_, h, exec_regset_regBit h, fun n' i' => exec_regset_regBit_ne h, exec_regset_regVal hs h hc hv, ?_,
    exec_regset_frame h⟩
  rw [setPc_pc]
  congr 1
  omega

/-- Settles O15: the register file is modified at `n`, there at bit `i`, and only `pc` changes besides. -/
theorem regsetFrame : Obligations.RegsetFrame := by
  intro s t n i b h
  obtain ⟨hparams, hmem, hrest⟩ := exec_regset_frame h
  exact ⟨hparams, fun n' => exec_regset_getElem?_ne h, fun i' hi => exec_regset_regBit_ne h fun hand => hi hand.2,
    fun x => by rw [hmem], hmem, hrest⟩

end Sys2Proof.Machine
end

section
/-! SUPPORT. What a step can end in (spec/40_execution_loop.md R101, spec/60_exceptions.md R160) and what no encoding holds
(spec/93_implementation_defined.md U5). -/

namespace Sys2Proof.Machine

variable {s : State} {i : Instr} {n ix a : Nat} {c : Bit}

/-- Only an index below the number of registers names a register. -/
theorem lt_regCount_of_regVal (hs : s.wf) (ha : regVal s n = some a) : n < s.params.regCount := by
  obtain ⟨-, -, ⟨hcount, -⟩, -⟩ := hs
  obtain ⟨bits, hbits, -⟩ := Option.map_eq_some_iff.mp ha
  exact hcount ▸ (List.getElem?_eq_some_iff.mp hbits).1

/-- Only an index below `W` names a bit of a register. -/
theorem lt_of_regBit (hs : s.wf) (hc : regBit s n ix = some c) : n < s.params.regCount ∧ ix < s.params.width := by
  obtain ⟨-, -, ⟨hcount, hwidth⟩, -⟩ := hs
  obtain ⟨bits, hbits, hbit⟩ := Option.bind_eq_some_iff.mp hc
  exact ⟨hcount ▸ (List.getElem?_eq_some_iff.mp hbits).1,
    hwidth bits (List.mem_of_getElem? hbits) ▸ (List.getElem?_eq_some_iff.mp hbit).1⟩

/-- An instruction is refused when its operand names nothing, or when the rest refuses every value it names. -/
theorem withIndex_eq_refused {α : Type} {x : Option α} {k : α → Host.Outcome State Fault Refusal}
    (h : ∀ v, x = some v → k v = .refused .indexOutOfRange) : withIndex x k = .refused .indexOutOfRange := by
  cases x with
  | none => rfl
  | some v => exact h v rfl

/-- Settles O13: operands that are all there are in range, and then the instruction is well formed. -/
theorem unencodableIndexIsRefused : Obligations.UnencodableIndexIsRefused := by
  intro s i hs hwf
  rw [Instr.wf_iff] at hwf
  cases i with
  | memset n b => exact withIndex_eq_refused fun a ha => absurd (lt_regCount_of_regVal hs ha) hwf
  | memjmp n k =>
    exact withIndex_eq_refused fun a ha => withIndex_eq_refused fun d hd =>
      absurd ⟨lt_regCount_of_regVal hs ha, lt_regCount_of_regVal hs hd⟩ hwf
  | regset n ix b =>
    refine withIndex_eq_refused fun t ht => ?_
    obtain ⟨⟨c, hc⟩, -⟩ := setRegBit_eq_some ht
    exact absurd (lt_of_regBit hs hc) hwf
  | regjmp n ix k =>
    refine withIndex_eq_refused fun c hc => withIndex_eq_refused fun d hd => ?_
    obtain ⟨hn, hix⟩ := lt_of_regBit hs hc
    exact absurd ⟨hn, hix, lt_regCount_of_regVal hs hd⟩ hwf

/-- A well-formed instruction executes, unless it is a `MEMJMP` on address 2. -/
theorem exec_outcome (hs : s.wf) (hi : i.wf s.params) : (∃ t, exec i s = .next t) ∨
    exec i s = .fault .undefinedRead ∧ ∃ n k, i = .memjmp n k ∧ regVal s n = some 2 := by
  obtain ⟨-, -, hregs, -⟩ := id hs
  rw [Instr.wf_iff] at hi
  cases i with
  | memset n b =>
    obtain ⟨a, ha, -⟩ := regVal_eq_some hregs hi
    exact .inl ⟨_, exec_memset b ha⟩
  | memjmp n k =>
    obtain ⟨hn, hk⟩ := hi
    obtain ⟨a, ha, -⟩ := regVal_eq_some hregs hn
    obtain ⟨d, hd, -⟩ := regVal_eq_some hregs hk
    rcases eq_or_ne a 2 with rfl | h2
    · exact .inr ⟨exec_memjmp_undefined ha hd (memRead_two hs ha), n, k, rfl, ha⟩
    · exact .inl ⟨_, exec_memjmp ha hd (memRead_of_regVal hs ha h2)⟩
  | regset n ix b =>
    obtain ⟨hn, hix⟩ := hi
    obtain ⟨c, hc⟩ := regBit_eq_some hregs hn hix
    exact .inl ⟨_, exec_regset b hc⟩
  | regjmp n ix k =>
    obtain ⟨hn, hix, hk⟩ := hi
    obtain ⟨c, hc⟩ := regBit_eq_some hregs hn hix
    obtain ⟨d, hd, -⟩ := regVal_eq_some hregs hk
    exact .inl ⟨_, exec_regjmp hc hd⟩

/-- Settles O7: a fetch fails only by an undefined read, and what it gives is well formed, so only a `MEMJMP` on address 2
does not execute. -/
theorem stepOutcomesAreThreeOnly : Obligations.StepOutcomesAreThreeOnly := by
  intro s hs
  refine ⟨step_of_halted, fun hrun => ?_⟩
  cases hfetch : fetch s with
  | error e =>
    obtain rfl := fetch_eq_error hfetch
    exact .inr ⟨by rw [step, hrun, hfetch]; rfl, .inl rfl⟩
  | ok i =>
    rw [step_of_fetch hrun hfetch]
    refine (exec_outcome hs (fetch_wf hfetch)).imp_right fun ⟨hfault, n, k, hi, h2⟩ => ?_
    exact ⟨hfault, .inr ⟨n, k, congrArg Except.ok hi, h2⟩⟩

end Sys2Proof.Machine
end

section
/-! SUPPORT. The halting write, the frame of `MEMSET`, and what a step leaves alone in the registers, in memory and in the
output stage (spec/10_state.md R22, spec/20_memory.md R43 to R51). -/

namespace Sys2Proof.Machine

variable {s t : State} {i : Instr} {n ix : Nat} {b : Bit}

/-- A write of 1 to address 0 is the store and then the halt (R44). -/
theorem memWrite_haltCell (s : State) :
    memWrite s haltCell true = halt { s with mem := s.mem.write haltCell true } := by
  have hmod : haltCell % s.params.memSize = haltCell := Nat.zero_mod _
  rw [memWrite, hmod]
  rfl

/-- Settles O9: the halting write is the store and the halt, and the advance is `MEMSET`'s own. -/
theorem haltingWriteStoresAndMovesPc : Obligations.HaltingWriteStoresAndMovesPc := by
  intro s n _ _ ha
  rw [exec_memset true ha, ← haltCell, memWrite_haltCell, ← Nat.add_assoc]
  rfl

/-- Settles O14: `MEMSET` is one memory write and the advance, and a write reaches the halt at address 0 only and the output
stage at address 2 only. -/
theorem memsetFrame : Obligations.MemsetFrame := by
  intro s t n a b hs h ha
  have hmod := regVal_mod_memSize hs ha
  have hmem := exec_memset_mem_read hs ha h
  obtain rfl := exec_memset_eq_next ha h
  refine ⟨memWrite_params s a b, memWrite_regs s a b, fun x hx => (hmem x).trans (if_neg hx), fun h0 => ?_,
    fun h2 => memWrite_output_frame (hmod.symm ▸ h2)⟩
  have hno : (a == haltCell && b) = false := by simpa [haltCell] using h0
  rw [setPc_halted, memWrite_halted, hmod, hno, Bool.or_false]

/-! ## The output stage -/

/-- A trigger changes the buffer or emits. -/
theorem outputTrigger_moves (s : State) : (outputTrigger s).obuf ≠ s.obuf ∨ (outputTrigger s).out ≠ s.out := by
  rcases outputTrigger_cases s with ⟨-, heq⟩ | ⟨-, heq⟩ <;> rw [heq] <;> simp

theorem outputTrigger_out (s : State) :
    (outputTrigger s).out = s.out ∨ ∃ c, (outputTrigger s).out = s.out ++ [c] ∧ (outputTrigger s).obuf = [] := by
  rcases outputTrigger_cases s with ⟨-, heq⟩ | ⟨-, heq⟩ <;> rw [heq]
  · exact .inl rfl
  · exact .inr ⟨_, rfl, rfl⟩

/-- An instruction other than the `MEMSET` of 1 at address 2 leaves the output stage alone. -/
theorem exec_output_frame (hs : s.wf) (h : exec i s = .next t)
    (hno : ¬∃ n, i = .memset n true ∧ regVal s n = some 2) : t.obuf = s.obuf ∧ t.out = s.out := by
  cases i with
  | memset n b =>
    obtain ⟨a, ha, rfl⟩ := execMemset_eq_next h
    refine memWrite_output_frame fun ⟨h2, hb⟩ => hno ⟨n, hb ▸ rfl, ?_⟩
    rw [ha, ← regVal_mod_memSize hs ha, h2]
    rfl
  | memjmp n k =>
    obtain ⟨a, d, c, -, -, -, rfl⟩ := execMemjmp_eq_next h
    exact ⟨rfl, rfl⟩
  | regset n ix b =>
    obtain ⟨-, rfl⟩ := execRegset_eq_next h
    exact ⟨rfl, rfl⟩
  | regjmp n ix k =>
    obtain ⟨c, d, -, -, rfl⟩ := execRegjmp_eq_next h
    exact ⟨rfl, rfl⟩

/-- That `MEMSET` is the store, the trigger and the advance. -/
theorem exec_memset_outTrigCell (hs : s.wf) (ha : regVal s n = some 2) (h : exec (.memset n true) s = .next t) :
    t = setPc (outputTrigger { s with mem := s.mem.write outTrigCell true }) (s.pc + (3 + s.params.r)) :=
  (exec_memset_eq_next ha h).trans (congrArg (setPc · _) (memWrite_outTrigCell (regVal_mod_memSize hs ha)))

/-- Settles O24: the `MEMSET` of 1 at address 2 triggers, a trigger always moves the output stage, and nothing else does. -/
theorem outputMovesOnlyOnTrigger : Obligations.OutputMovesOnlyOnTrigger := by
  intro s t hs h
  obtain ⟨-, i, hfetch, hexec⟩ := step_eq_next h
  simp only [hfetch, Except.ok.injEq]
  by_cases htrigger : ∃ n, i = .memset n true ∧ regVal s n = some 2
  · obtain ⟨n, rfl, ha⟩ := id htrigger
    obtain rfl := exec_memset_outTrigCell hs ha hexec
    have hmoves := outputTrigger_moves { s with mem := s.mem.write outTrigCell true }
    exact ⟨iff_of_true hmoves htrigger, outputTrigger_out { s with mem := s.mem.write outTrigCell true }⟩
  · obtain ⟨hobuf, hout⟩ := exec_output_frame hs hexec htrigger
    exact ⟨iff_of_false (by simp [hobuf, hout]) htrigger, .inl hout⟩

/-! ## The registers -/

/-- Writing the bit that is there changes nothing. -/
theorem modify_set_of_regBit (h : regBit s n ix = some b) : (s.regs.modify n fun bits => bits.set ix b) = s.regs := by
  obtain ⟨bits, hbits, hbit⟩ := Option.bind_eq_some_iff.mp h
  obtain ⟨hix, rfl⟩ := List.getElem?_eq_some_iff.mp hbit
  refine List.ext_getElem? fun m => ?_
  rcases eq_or_ne n m with rfl | hne
  · rw [List.getElem?_modify_eq, hbits]
    exact congrArg some (List.set_getElem_self hix)
  · rw [List.getElem?_modify_ne _ _ hne]

/-- Settles O25: no other instruction touches the registers, and a `REGSET` that changes them finds the other bit. -/
theorem onlyRegsetChangesRegisters : Obligations.OnlyRegsetChangesRegisters := by
  intro s t hs h hne
  obtain ⟨-, i, hfetch, hexec⟩ := step_eq_next h
  cases i with
  | memset n b =>
    obtain ⟨a, -, rfl⟩ := execMemset_eq_next hexec
    exact absurd (memWrite_regs s a b) hne
  | memjmp n k =>
    obtain ⟨a, d, c, -, -, -, rfl⟩ := execMemjmp_eq_next hexec
    exact absurd rfl hne
  | regset n ix b =>
    obtain ⟨⟨c, hc⟩, -⟩ := execRegset_eq_next hexec
    have hcb : c ≠ b := by
      rintro rfl
      exact hne ((exec_regset_regs hexec).trans (modify_set_of_regBit hc))
    exact ⟨n, ix, b, hfetch, by rw [hc, Bool.eq_not_of_ne hcb], exec_regset_regBit hexec,
      fun n' ix' => exec_regset_regBit_ne hexec⟩
  | regjmp n ix k =>
    obtain ⟨c, d, -, -, rfl⟩ := execRegjmp_eq_next hexec
    exact absurd rfl hne

/-! ## Memory -/

/-- Storing the bit that is there changes nothing: the canonical form has one list for each content. -/
theorem Memory.write_read_self {mem : Memory} (h : mem.wf) (a : Nat) : mem.write a (mem.read a) = mem := by
  refine Memory.ext_read (Memory.wf_write h _ _) h fun x => ?_
  rw [Memory.read_write h.1]
  split
  · next hx => rw [hx]
  · rfl

/-- Settles O26: no other instruction touches memory, and a `MEMSET` that changes it finds the other bit. -/
theorem onlyMemsetChangesMemory : Obligations.OnlyMemsetChangesMemory := by
  intro s t hs h hne
  obtain ⟨-, i, hfetch, hexec⟩ := step_eq_next h
  cases i with
  | memset n b =>
    obtain ⟨a, ha, rfl⟩ := execMemset_eq_next hexec
    have hread := exec_memset_mem_read hs ha hexec
    have hab : s.mem.read a ≠ b := by
      rintro rfl
      obtain ⟨-, -, -, ⟨hmem, -⟩, -⟩ := id hs
      rw [setPc_mem, memWrite_mem, regVal_mod_memSize hs ha] at hne
      exact hne (Memory.write_read_self hmem a)
    exact ⟨n, a, b, hfetch, ha, Bool.eq_not_of_ne hab, (hread a).trans (if_pos rfl),
      fun x hx => (hread x).trans (if_neg hx)⟩
  | memjmp n k =>
    obtain ⟨a, d, c, -, -, -, rfl⟩ := execMemjmp_eq_next hexec
    exact absurd rfl hne
  | regset n ix b =>
    obtain ⟨-, rfl⟩ := execRegset_eq_next hexec
    exact absurd rfl hne
  | regjmp n ix k =>
    obtain ⟨c, d, -, -, rfl⟩ := execRegjmp_eq_next hexec
    exact absurd rfl hne

/-- Settles O27: the read sees the stored bit, and every bit of a fetched instruction is such a read. -/
theorem nextFetchSeesTheStore : Obligations.NextFetchSeesTheStore := by
  intro s t n a b hs h ha h2
  have hparams : t.params = s.params := (exec_keeps_wf hs h).2
  have hread : memRead t a = .ok b := by
    rw [memRead_eq_ok, hparams, regVal_mod_memSize hs ha]
    exact ⟨h2, (exec_memset_mem_read hs ha h a).trans (if_pos rfl)⟩
  refine ⟨hread, fun i j hfetch hj haddr => ?_⟩
  obtain ⟨-, hreads⟩ := fetch_eq_ok.mp hfetch
  have hj' : j < (encode t.params i).length := (encode_length t.params i).symm ▸ hj
  have hbit := reads_iff.mp hreads j hj'
  rw [Nat.zero_add, ← memRead_mod, haddr, hread] at hbit
  rw [List.getElem?_eq_getElem hj', Except.ok.inj hbit]

end Sys2Proof.Machine
end

section
/-! SUPPORT. The launch (spec/10_state.md R34, spec/20_memory.md R55): the state it gives, and when it is refused. -/

namespace Sys2Proof.Machine

variable {P : Params} {regInit : List BitString} {memInit : Memory} {image : List Byte}

/-- Legal arguments and an image that fits launch. -/
theorem launch_of_fits (hP : P.legal) (hregs : regInitOk P regInit) (hmem : memInitOk P memInit)
    (hfits : imageFits P image) : launch P regInit memInit image = .next
      { params := P, regs := regInit, pc := loadAddr,
        mem := memInit.storeBits P.memSize loadAddr (imageBits image), halted := false, obuf := [], out := [] } := by
  rw [launch, if_pos ⟨hP, hregs, hmem⟩, if_pos hfits]

/-- An image that does not fit is refused by name. -/
theorem launch_of_not_fits (hP : P.legal) (hregs : regInitOk P regInit) (hmem : memInitOk P memInit)
    (hfits : ¬ imageFits P image) : launch P regInit memInit image = .refused .imageTooLong := by
  rw [launch, if_pos ⟨hP, hregs, hmem⟩, if_neg hfits]

/-- The limit of R55 as a difference: memory has room for the I/O cells. -/
theorem imageFits_iff (hP : P.legal) : imageFits P image ↔ 8 * image.length ≤ P.memSize - 3 := by
  obtain ⟨-, hm, -⟩ := hP
  have h4 := memSize_ge_four hm
  simp only [imageFits, loadAddr]
  omega

/-- The image loader changes no cell outside the image. -/
theorem launch_mem_read_outside (hm : memInit.wf) (hfits : imageFits P image) {a : Nat}
    (h : a < loadAddr ∨ loadAddr + 8 * image.length ≤ a) :
    (memInit.storeBits P.memSize loadAddr (imageBits image)).read a = memInit.read a := by
  rw [launch_mem_read hm hfits]
  split
  · next hle =>
    rw [List.getElem?_eq_none (by rw [imageBits_length]; omega)]
    rfl
  · rfl

/-- A launched machine meets the invariants of R35. -/
theorem launch_wf {s : State} (h : launch P regInit memInit image = .next s) : s.wf := by
  obtain ⟨⟨hP, hregs, hwf, hbounded⟩, -, rfl⟩ := launch_eq_next h
  obtain ⟨-, hm, hout⟩ := id hP
  have h4 := memSize_ge_four hm
  have hpc : loadAddr < P.memSize := h4
  exact ⟨hP, hpc, hregs, Memory.wf_storeBits (memSize_pos P) _ _ hwf hbounded, by rcases hout with h | h <;> simp [h],
    by simp⟩

/-- Settles O1: the launched state holds the arguments, and its memory is the image over `MEM_INIT`. -/
theorem launchGivesResetValues : Obligations.LaunchGivesResetValues := by
  intro P regInit memInit image hP hregs hmem hfits
  have h := launch_of_fits hP hregs hmem hfits
  exact ⟨_, h, rfl, rfl, rfl, fun a => launch_mem_read_outside hmem.1 hfits, rfl, rfl, rfl, launch_wf h⟩

/-- Settles O3: legal arguments are refused for the image only. -/
theorem overlongImageIsRefused : Obligations.OverlongImageIsRefused := by
  intro P regInit memInit image hP hregs hmem
  rw [← imageFits_iff hP]
  exact ⟨fun hfits => ⟨_, launch_of_fits hP hregs hmem hfits⟩, launch_of_not_fits hP hregs hmem⟩

/-- Settles O4: the empty image fits, and the launch of zeros is `State.reset`. -/
theorem resetMeetsStateInvariants : Obligations.ResetMeetsStateInvariants := by
  have h : launch Params.reference (zeroRegs Params.reference) [] [] = .next State.reset :=
    launch_of_fits (by decide) (by decide) (by decide) (by decide)
  exact ⟨launch_wf h, h⟩

end Sys2Proof.Machine
end

section
/-! SUPPORT. Runs of instructions, and bits sent through the output stage (spec/20_memory.md R46, R47). -/

namespace Sys2Proof.Machine

variable {s t u : State} {n : Nat}

theorem execAll_cons {i : Instr} {prog : List Instr} (h : exec i s = .next t) :
    execAll (i :: prog) s = execAll prog t := by
  rw [execAll, h]

/-- A register's value depends on the register file only. -/
theorem regVal_congr (h : t.regs = s.regs) (n : Nat) : regVal t n = regVal s n := by
  rw [regVal, regVal, h]

/-- Two states that differ in `pc`, in the output stage and its two cells at most. -/
structure SameButOutput (s t : State) : Prop where
  params : t.params = s.params
  regs : t.regs = s.regs
  halted : t.halted = s.halted
  mem : ∀ x, x ≠ 1 → x ≠ 2 → t.mem.read x = s.mem.read x

theorem SameButOutput.trans (h : SameButOutput s t) (h' : SameButOutput t u) : SameButOutput s u where
  params := h'.params.trans h.params
  regs := h'.regs.trans h.regs
  halted := h'.halted.trans h.halted
  mem x h1 h2 := (h'.mem x h1 h2).trans (h.mem x h1 h2)

variable {nBit nTrig : Nat}

/-- Storing a bit at address 1 and triggering sends it: the buffer grows by it, or the code point it completes is emitted. -/
theorem execAll_sendBit (hs : s.wf) (hBit : regVal s nBit = some 1) (hTrig : regVal s nTrig = some 2) (b : Bit) :
    ∃ t, (∀ prog, execAll (.memset nBit b :: .memset nTrig true :: prog) s = execAll prog t) ∧ t.wf ∧
      SameButOutput s t ∧
      (s.obuf.length + 1 < s.params.outWidth → t.obuf = s.obuf ++ [b] ∧ t.out = s.out) ∧
      (s.obuf.length + 1 = s.params.outWidth → t.obuf = [] ∧ t.out = s.out ++ [uint (s.obuf ++ [b])]) := by
  obtain ⟨t, ht, tparams, tregs, -, tmem, thalted, tout, -⟩ :=
    memsetStoresAndTriggers s nBit 1 b hs (lt_regCount_of_regVal hs hBit) hBit
  have htwf := (exec_keeps_wf hs ht).1
  have hTrig' : regVal t nTrig = some 2 := (regVal_congr tregs nTrig).trans hTrig
  obtain ⟨u, hu, uparams, uregs, -, umem, uhalted, -, uout⟩ :=
    memsetStoresAndTriggers t nTrig 2 true htwf (lt_regCount_of_regVal htwf hTrig') hTrig'
  obtain ⟨tobuf, tout⟩ := tout (by simp)
  refine ⟨u, fun prog => (execAll_cons ht).trans (execAll_cons hu), (exec_keeps_wf htwf hu).1, ⟨uparams.trans tparams,
    uregs.trans tregs, by simpa [thalted] using uhalted, fun x h1 h2 => ?_⟩, ?_⟩
  · rw [umem, if_neg h2, tmem, if_neg h1]
  · simpa [tparams, tobuf, tout, tmem] using uout

/-- Bits that fill the buffer up come out as one code point, after those already there. -/
theorem execAll_sendBits {bits : BitString} (hs : s.wf) (hBit : regVal s nBit = some 1)
    (hTrig : regVal s nTrig = some 2) (hlen : s.obuf.length + bits.length = s.params.outWidth) :
    ∃ t, execAll (sendBits nBit nTrig bits) s = .next t ∧ SameButOutput s t ∧
      t.obuf = [] ∧ t.out = s.out ++ [uint (s.obuf ++ bits)] := by
  induction bits generalizing s with
  | nil =>
    obtain ⟨-, -, -, -, hobuf, -⟩ := hs
    exact absurd hlen hobuf.ne
  | cons b bits ih =>
    obtain ⟨t, hrun, ht, hst, hshort, hfull⟩ := execAll_sendBit hs hBit hTrig b
    have hsend : execAll (sendBits nBit nTrig (b :: bits)) s = execAll (sendBits nBit nTrig bits) t := hrun _
    rw [List.length_cons, ← Nat.add_assoc] at hlen
    rw [hsend]
    cases bits with
    | nil => exact ⟨t, rfl, hst, hfull hlen⟩
    | cons b' bits =>
      obtain ⟨tobuf, tout⟩ := hshort (by rw [List.length_cons] at hlen; omega)
      obtain ⟨u, hu, htu, uobuf, uout⟩ := ih ht ((regVal_congr hst.regs _).trans hBit)
        ((regVal_congr hst.regs _).trans hTrig) (by rw [hst.params, tobuf, ← hlen]; simp; omega)
      exact ⟨u, hu, hst.trans htu, uobuf, by rw [uout, tout, tobuf, List.append_assoc]; rfl⟩

/-- Settles O30: the buffer starts empty, so the bits sent are all of the code point. -/
theorem triggeredBitsFormOneCodePoint : Obligations.TriggeredBitsFormOneCodePoint := by
  intro s nBit nTrig bits hs hempty hlen _ _ hBit hTrig
  obtain ⟨t, ht, hst, hobuf, hout⟩ := execAll_sendBits (bits := bits) hs hBit hTrig (by simpa [hempty] using hlen)
  exact ⟨t, ht, by rw [hout, hempty]; rfl, hobuf, hst.halted, hst.regs, hst.mem⟩

end Sys2Proof.Machine
end

section
/-! SUPPORT. What the composite forms do when executed (spec/43_composite_set_register.md R141, R142): a run of `REGSET`s on
one register, and the value its bits then make up. -/

namespace Sys2Proof.Machine

variable {s t u : State} {n : Nat}

/-- Two states that differ in `pc` and in register `n` at most. -/
structure SameButRegister (n : Nat) (s t : State) : Prop where
  params : t.params = s.params
  regs : ∀ n', n' ≠ n → t.regs[n']? = s.regs[n']?
  mem : t.mem = s.mem
  halted : t.halted = s.halted
  obuf : t.obuf = s.obuf
  out : t.out = s.out

theorem SameButRegister.refl (n : Nat) (s : State) : SameButRegister n s s := ⟨rfl, fun _ _ => rfl, rfl, rfl, rfl, rfl⟩

theorem SameButRegister.trans (h : SameButRegister n s t) (h' : SameButRegister n t u) : SameButRegister n s u where
  params := h'.params.trans h.params
  regs n' hn := (h'.regs n' hn).trans (h.regs n' hn)
  mem := h'.mem.trans h.mem
  halted := h'.halted.trans h.halted
  obuf := h'.obuf.trans h.obuf
  out := h'.out.trans h.out

theorem SameButRegister.regVal (h : SameButRegister n s t) {n' : Nat} (hn : n' ≠ n) : regVal t n' = regVal s n' := by
  rw [Machine.regVal, Machine.regVal, h.regs n' hn]

theorem sameButRegister_of_regset {ix : Nat} {b : Bit} (h : exec (.regset n ix b) s = .next t) :
    SameButRegister n s t := by
  obtain ⟨hparams, hmem, hhalted, hobuf, hout⟩ := exec_regset_frame h
  exact ⟨hparams, fun n' => exec_regset_getElem?_ne h, hmem, hhalted, hobuf, hout⟩

/-- A run of `REGSET`s on one register, each writing the bit `f` gives its index, leaves just these bits written. -/
theorem execAll_regsets (f : Nat → Bit) {ixs : List Nat} (hs : s.wf) (hn : n < s.params.regCount)
    (hixs : ∀ i ∈ ixs, i < s.params.width) :
    ∃ t, execAll (ixs.map fun i => .regset n i (f i)) s = .next t ∧ t.wf ∧ SameButRegister n s t ∧
      ∀ i, regBit t n i = if i ∈ ixs then some (f i) else regBit s n i := by
  induction ixs generalizing s with
  | nil => exact ⟨s, rfl, hs, .refl n s, fun i => by simp⟩
  | cons ix ixs ih =>
    obtain ⟨-, -, hregs, -⟩ := id hs
    obtain ⟨c, hc⟩ := regBit_eq_some hregs hn (hixs ix (by simp))
    have ht := exec_regset (f ix) hc
    obtain ⟨htwf, htparams⟩ := exec_keeps_wf hs ht
    obtain ⟨u, hu, huwf, hframe, hbits⟩ :=
      ih htwf (htparams ▸ hn) fun i hi => htparams ▸ hixs i (List.mem_cons_of_mem _ hi)
    refine ⟨u, (execAll_cons ht).trans hu, huwf, (sameButRegister_of_regset ht).trans hframe, fun i => ?_⟩
    rw [hbits]
    by_cases hmem : i ∈ ixs
    · simp [hmem]
    · rcases eq_or_ne i ix with rfl | hne
      · simp [hmem, exec_regset_regBit ht]
      · simp [hmem, hne, exec_regset_regBit_ne ht (n' := n) fun h => hne h.2]

/-- A register holds `c` exactly when its bits are those of `c`. -/
theorem regVal_eq_some_iff_bits (hs : s.wf) (hn : n < s.params.regCount) {c : Nat} (hc : c < 2 ^ s.params.width) :
    regVal s n = some c ↔ ∀ i < s.params.width, regBit s n i = some (constBit s.params c i) := by
  obtain ⟨-, -, hregs, -⟩ := hs
  obtain ⟨bits, hbits, hlen⟩ := regs_getElem? hregs hn
  have hval : regVal s n = some (uint bits) := by rw [regVal, hbits]; rfl
  have hbit : ∀ i, regBit s n i = bits[i]? := fun i => by rw [regBit, hbits]; rfl
  have hconst : ∀ i < s.params.width, (bitsOf s.params.width c)[i]? = some (constBit s.params c i) := fun i hi => by
    rw [bitsOf_getElem?, if_pos hi, constBit]
  simp only [hval, hbit, Option.some.injEq]
  constructor
  · rintro rfl i hi
    rw [← hconst i hi, bitsOf_uint_of_length hlen]
  · intro h
    have heq : bits = bitsOf s.params.width c := List.ext_getElem? fun i => by
      rcases Nat.lt_or_ge i s.params.width with hi | hi
      · rw [h i hi, hconst i hi]
      · rw [List.getElem?_eq_none (hlen.trans_le hi), List.getElem?_eq_none ((bitsOf_length ..).trans_le hi)]
    rw [heq, uint_bitsOf hc]

/-- Settles O31: every bit of the register is written with the constant's. -/
theorem fromAnyFormYieldsConstant : Obligations.FromAnyFormYieldsConstant := by
  intro s n const hs hn hconst
  refine ⟨expandFromAny_length .., setFullRegisterFromAny_eq_ok ⟨Field.fits_natCast hn, Field.fits_natCast hconst⟩,
    encodeAll_expandFromAny_length .., ?_⟩
  obtain ⟨t, ht, htwf, hframe, hbits⟩ :=
    execAll_regsets (constBit s.params const) hs hn fun i => List.mem_range.mp
  refine ⟨t, ht, ?_, fun n' => hframe.regVal, hframe.mem, hframe.halted, hframe.obuf, hframe.out⟩
  rw [← hframe.params] at hn hconst
  refine (regVal_eq_some_iff_bits htwf hn hconst).mpr fun i hi => ?_
  rw [hframe.params] at hi ⊢
  rw [hbits, if_pos (List.mem_range.mpr hi)]

/-- Settles O32: the bits where the two values agree are not written, and there the assumed value has the constant's bits. -/
theorem fromKnownFormChangesDifferingBits : Obligations.FromKnownFormChangesDifferingBits := by
  intro s n init const hs hn hinit hconst
  refine ⟨setFullRegisterFromKnown_eq_ok ⟨Field.fits_natCast hn, Field.fits_natCast hinit, Field.fits_natCast hconst⟩,
    by rw [encodeAll_expandFromKnown_length, expandFromKnown_length], ?_⟩
  obtain ⟨t, ht, htwf, hframe, hbits⟩ := execAll_regsets (constBit s.params const) hs hn
    (ixs := (List.range s.params.width).filter fun i => constBit s.params init i != constBit s.params const i)
    fun i hi => List.mem_range.mp (List.mem_of_mem_filter hi)
  have hbits' : ∀ i, i < s.params.width → regBit t n i =
      if constBit s.params init i = constBit s.params const i then regBit s n i
      else some (constBit s.params const i) := fun i hi => by
    rw [hbits]
    by_cases heq : constBit s.params init i = constBit s.params const i <;> simp [heq, hi]
  refine ⟨t, ht, hbits', fun hval => ?_, fun n' => hframe.regVal, hframe.mem, hframe.halted, hframe.obuf, hframe.out⟩
  have hold := (regVal_eq_some_iff_bits hs hn hinit).mp hval
  rw [← hframe.params] at hn hconst
  refine (regVal_eq_some_iff_bits htwf hn hconst).mpr fun i hi => ?_
  rw [hframe.params] at hi ⊢
  rw [hbits' i hi]
  split
  · next heq => rw [hold i hi, heq]
  · rfl

end Sys2Proof.Machine
end

section
/-! SUPPORT. The difference constant (spec/43_composite_set_register.md R143), and the sizes of lines with concrete operands
(spec/30_encoding.md R91). -/

namespace Sys2Proof.Machine

variable {P : Params}

/-- The difference constant as an integer. -/
theorem differenceConst_cast (P : Params) (a b : Int) : (differenceConst P a b : Int) = (a - b) % 2 ^ P.width := by
  have hpos : (0 : Int) < (2 ^ P.width : Nat) := by positivity
  rw [differenceConst, Int.toNat_of_nonneg (Int.emod_nonneg _ hpos.ne'), Nat.cast_pow, Nat.cast_ofNat]

/-- Added to `last` modulo `MEMSIZE`, the displacement gives the target (R105). -/
theorem add_displacementTo_mod {target last : Nat} (h : target < P.memSize) :
    (last + displacementTo P target last) % P.memSize = target := by
  have hcast : (((last + displacementTo P target last) % P.memSize : Nat) : Int) = (target % P.memSize : Nat) := by
    rw [Int.natCast_emod, Nat.cast_add, displacementTo, differenceConst_cast, Params.memSize, Nat.cast_pow,
      Nat.cast_ofNat, Int.add_emod_emod, add_sub_cancel, Int.natCast_emod, Nat.cast_pow, Nat.cast_ofNat]
  exact (Int.natCast_inj.mp hcast).trans (Nat.mod_eq_of_lt h)

/-- Settles O33: the constant is the remainder of `a - b` modulo `2^W`. -/
theorem differenceConstantIsModular : Obligations.DifferenceConstantIsModular := by
  intro P n init a b
  have hcast := differenceConst_cast P a b
  refine ⟨Int.ofNat_lt.mp (differenceConst_fits P a b).2, hcast ▸ Int.dvd_emod_sub_self, fun hlt hle => ?_,
    hcast ▸ rfl, hcast ▸ rfl, fun target last => add_displacementTo_mod⟩
  have hsum : a - b + 2 ^ P.width = 2 ^ P.width - (b - a) := by omega
  rw [hcast, ← Int.add_emod_right, hsum, Int.emod_eq_of_lt (by omega) (by omega)]

/-- A template's length is its instruction's. -/
theorem Template.length_instr (P : Params) (t : Template Int) : t.instr.length P = t.length P := by
  cases t <;> rfl

/-- A template emits its format's length. -/
theorem encodeChecked_length {t : Template Int} {bits : BitString} (h : encodeChecked P t = .ok bits) :
    bits.length = t.length P := by
  obtain ⟨-, rfl⟩ := checked_eq_ok h
  rw [encode_length, Template.length_instr]

/-- Settles O37: a template has its format's length, and a composite form the size of its range. -/
theorem concreteLineSizeIsExact : Obligations.ConcreteLineSizeIsExact := by
  intro P line bits h
  cases line with
  | template t =>
    rw [encodeChecked_length h, ← Template.length_map P some]
    rfl
  | setFromAny n const => exact (setFullRegisterFromAny_size h).1
  | setFromKnown n init const => exact (setFullRegisterFromKnown_size h).1
  | setDifferenceFromAny n a b => exact (setFullRegisterFromAny_size h).1
  | setDifferenceFromKnown n init a b => exact (setFullRegisterFromKnown_size h).1

end Sys2Proof.Machine
end

section
/-! SUPPORT. Placeholders (spec/30_encoding.md R88): which kind recognises a text, and how the placeholders of a line are
recognised stretch after stretch. -/

namespace Sys2Proof.Machine

variable {kind : PlaceholderKind} {after : List PlaceholderKind} {token : List Char}

theorem recognise_cons_of_some {found : Captured} (h : tryKind kind token = .ok (some found)) :
    recognise (kind :: after) token = .ok found := by
  simp [recognise, h, bind, Except.bind]

theorem recognise_cons_of_error {e : AsmError} (h : tryKind kind token = .error e) :
    recognise (kind :: after) token = .error e := by
  simp [recognise, h, bind, Except.bind]

/-- Kinds of which none matches. -/
theorem recognise_of_none {kinds : List PlaceholderKind} (h : ∀ k ∈ kinds, tryKind k token = .ok none) :
    recognise kinds token = .error (.invalidOperand token) := by
  rw [← List.append_nil kinds, recognise_append h]
  rfl

theorem labelToken_of_ne_nil {name : Label} (h : name ≠ []) (found : Captured) :
    labelToken token name found = .ok (some found) := by
  simp [labelToken, h]

/-- Text that begins with `.` is a reference for `X` and for `L`. -/
theorem tryKind_reference {name : Label} (hname : name ≠ []) (hkind : kind = .X ∨ kind = .L) :
    tryKind kind ('.' :: name) = .ok (some (.reference name)) := by
  rcases hkind with rfl | rfl <;> exact labelToken_of_ne_nil hname _

/-- Settles O38: the kinds before do not match, so the tried kind decides, and for a label token its name does. -/
theorem firstMatchingKindWins : Obligations.FirstMatchingKindWins := by
  intro before after kind token hbefore
  rw [recognise_append hbefore]
  refine ⟨fun found => recognise_cons_of_some, recognise_of_none hbefore, ?_, ?_, ?_⟩
  · rintro name hname rfl hkind
    exact recognise_cons_of_some (tryKind_reference hname hkind)
  · rintro name hname rfl rfl
    exact recognise_cons_of_some (labelToken_of_ne_nil hname _)
  · rintro (⟨rfl, rfl | rfl⟩ | ⟨rfl, rfl⟩) <;> exact recognise_cons_of_error rfl

/-- The placeholders `a ++ b` are recognised as `a` and then as `b`. -/
theorem recogniseAll_append (a b : List Placeholder) : recogniseAll (a ++ b) =
    recogniseAll a >>= fun found => recogniseAll b >>= fun more => .ok (found ++ more) := by
  induction a with
  | nil => cases h : recogniseAll b <;> simp [recogniseAll, h, bind, Except.bind]
  | cons p a ih =>
    simp only [List.cons_append, recogniseAll, ih]
    cases recognise p.kinds p.token <;> cases recogniseAll a <;> cases recogniseAll b <;> rfl

/-- The stretches of a line are recognised as its placeholders in one list. -/
theorem recogniseAll_flatMap (parts : List LinePart) : recogniseAll (parts.flatMap LinePart.placeholders) =
    recogniseParts parts >>= fun found => .ok (found.flatMap Prod.snd) := by
  induction parts with
  | nil => rfl
  | cons part parts ih =>
    rw [List.flatMap_cons, recogniseAll_append, ih]
    simp only [recogniseParts]
    cases recogniseAll part.placeholders <;> cases recogniseParts parts <;> rfl

/-- The first placeholder no kind matches is the error of its line. -/
theorem recogniseParts_of_unmatched {parts : List LinePart} {before after : List Placeholder} {p : Placeholder}
    {found : List Captured} (hparts : parts.flatMap LinePart.placeholders = before ++ p :: after)
    (hbefore : recogniseAll before = .ok found) (hp : ∀ k ∈ p.kinds, tryKind k p.token = .ok none) :
    recogniseParts parts = .error (.invalidOperand p.token) := by
  have hall : recogniseAll (parts.flatMap LinePart.placeholders) = .error (.invalidOperand p.token) := by
    rw [hparts, recogniseAll_append, hbefore, recogniseAll, recognise_of_none hp]
    rfl
  rw [recogniseAll_flatMap] at hall
  rcases bind_eq_error.mp hall with h | ⟨found, -, h⟩
  · exact h
  · cases h

end Sys2Proof.Machine
end

section
/-! SUPPORT. The queue of resolved offsets (spec/30_encoding.md R88 to R90): each label reference takes one entry, in
encounter order, and nothing else takes any. -/

namespace Sys2Proof.Machine

variable {α : Type} {lit : Int → α} {queue left left' : List α} {found front back : List Captured} {name : Label}

/-! ## The references of a list of captured placeholders -/

theorem referencedNames_reference : referencedNames (.reference name :: found) = name :: referencedNames found := rfl

/-- The labels the stretches of a line refer to. -/
abbrev partsReferences (parts : List (Option LineForm × List Captured)) : List Label :=
  referencedNames (parts.flatMap Prod.snd)

theorem partsReferences_cons (form : Option LineForm) (found : List Captured)
    (parts : List (Option LineForm × List Captured)) :
    partsReferences ((form, found) :: parts) = referencedNames found ++ partsReferences parts :=
  referencedNames_append ..

/-! ## One list of placeholders -/

/-- Everything one placeholder can do: it is a reference, or it takes nothing from the queue and passes what it passes. -/
theorem takeOperands_cases (lit : Int → α) (c : Captured) : (∃ name, c = .reference name) ∨
    (∀ found, referencedNames (c :: found) = referencedNames found) ∧ ∃ own, ∀ found queue,
      takeOperands lit (c :: found) queue = takeOperands lit found queue >>= fun x => .ok (own ++ x.1, x.2) := by
  have passesNothing : ∀ x : Except AsmError (List (Operand α) × List α), x = x >>= fun x => .ok ([] ++ x.1, x.2) := by
    rintro (e | x) <;> rfl
  cases c with
  | reference name => exact .inl ⟨name, rfl⟩
  | literal v => exact .inr ⟨fun _ => rfl, [.number (lit v)], fun _ _ => rfl⟩
  | text token => exact .inr ⟨fun _ => rfl, [.text token], fun _ _ => rfl⟩
  | declares name => exact .inr ⟨fun _ => rfl, [], fun _ _ => passesNothing _⟩
  | matched => exact .inr ⟨fun _ => rfl, [], fun _ _ => passesNothing _⟩

/-- A reference takes the first entry of the queue. -/
theorem takeOperands_reference (offset : α) : takeOperands lit (.reference name :: found) (offset :: queue) =
    takeOperands lit found queue >>= fun x => .ok (.number offset :: x.1, x.2) := rfl

/-- With fewer entries than references the last references have none (R90). -/
theorem takeOperands_of_few (h : queue.length < (referencedNames found).length) :
    takeOperands lit found queue = .error .unresolvedLabelReference := by
  induction found generalizing queue with
  | nil => simp [referencedNames] at h
  | cons c found ih =>
    rcases takeOperands_cases lit c with ⟨name, rfl⟩ | ⟨hrefs, own, hstep⟩
    · cases queue with
      | nil => rfl
      | cons offset queue => rw [takeOperands_reference, ih (Nat.lt_of_succ_lt_succ h)]; rfl
    · rw [hrefs] at h
      rw [hstep, ih h]
      rfl

/-- With enough entries just as many are taken as there are references. -/
theorem takeOperands_of_enough (h : (referencedNames found).length ≤ queue.length) :
    ∃ operands, takeOperands lit found queue = .ok (operands, queue.drop (referencedNames found).length) := by
  induction found generalizing queue with
  | nil => exact ⟨[], rfl⟩
  | cons c found ih =>
    rcases takeOperands_cases lit c with ⟨name, rfl⟩ | ⟨hrefs, own, hstep⟩
    · cases queue with
      | nil => exact absurd h (Nat.not_succ_le_zero _)
      | cons offset queue =>
        obtain ⟨operands, hok⟩ := ih (Nat.le_of_succ_le_succ h)
        exact ⟨_, by rw [takeOperands_reference, hok]; rfl⟩
    · rw [hrefs] at h ⊢
      obtain ⟨operands, hok⟩ := ih h
      exact ⟨_, by rw [hstep, hok]; rfl⟩

/-- The placeholders after `front` go on with what `front` left of the queue. -/
theorem takeOperands_append {passed rest : List (Operand α)} (hfront : takeOperands lit front queue = .ok (passed, left))
    (hback : takeOperands lit back left = .ok (rest, left')) :
    takeOperands lit (front ++ back) queue = .ok (passed ++ rest, left') := by
  induction front generalizing queue passed with
  | nil =>
    obtain ⟨rfl, rfl⟩ : [] = passed ∧ queue = left := by simpa [takeOperands] using hfront
    exact hback
  | cons c front ih =>
    rcases takeOperands_cases lit c with ⟨name, rfl⟩ | ⟨-, own, hstep⟩
    · cases queue with
      | nil => cases hfront
      | cons offset queue =>
        obtain ⟨⟨passed', q⟩, hok, heq⟩ := bind_eq_ok.mp hfront
        obtain ⟨rfl, rfl⟩ : .number offset :: passed' = passed ∧ q = left := by simpa using heq
        rw [List.cons_append, takeOperands_reference, ih hok]
        rfl
    · rw [hstep] at hfront
      obtain ⟨⟨passed', q⟩, hok, heq⟩ := bind_eq_ok.mp hfront
      obtain ⟨rfl, rfl⟩ : own ++ passed' = passed ∧ q = left := by simpa using heq
      rw [List.cons_append, hstep, ih hok, ok_bind, List.append_assoc]

/-- Settles O39: the placeholders before a reference leave the queue at the reference's own entry. -/
theorem referencesConsumeOffsetsInOrder : Obligations.ReferencesConsumeOffsetsInOrder := by
  intro lit found queue
  refine ⟨takeOperands_of_few, fun henough => ?_⟩
  obtain ⟨operands, hoperands⟩ := takeOperands_of_enough (lit := lit) henough
  refine ⟨operands, hoperands, ?_⟩
  rintro front back name rfl
  rw [referencedNames_append, referencedNames_reference, List.length_append, List.length_cons] at henough
  have hlt : (referencedNames front).length < queue.length := by omega
  obtain ⟨passed, hfront⟩ := takeOperands_of_enough (lit := lit) hlt.le
  obtain ⟨rest, hback⟩ := takeOperands_of_enough (lit := lit) (found := back)
    (queue := queue.drop ((referencedNames front).length + 1)) (by rw [List.length_drop]; omega)
  obtain ⟨left, htail⟩ : ∃ left, takeOperands lit (.reference name :: back) (queue.drop (referencedNames front).length) =
      .ok (.number queue[(referencedNames front).length] :: rest, left) :=
    ⟨_, by rw [List.drop_eq_getElem_cons hlt, takeOperands_reference, hback, ok_bind]⟩
  have hall := takeOperands_append hfront htail
  refine ⟨passed, rest, queue[(referencedNames front).length], List.getElem?_eq_getElem hlt, hfront, ?_⟩
  exact congrArg Prod.fst (Except.ok.inj (hoperands.symm.trans hall))

/-! ## The stretches of a line -/

variable {parts : List (Option LineForm × List Captured)}

/-- The stretches after the first go on with what it left of the queue. -/
theorem takeParts_cons {form : Option LineForm} {operands : List (Operand α)}
    (h : takeOperands lit found queue = .ok (operands, left)) : takeParts lit ((form, found) :: parts) queue =
      takeParts lit parts left >>= fun more => .ok (⟨form, declaredNames found, operands⟩ :: more.1, more.2) := by
  rw [takeParts, h]
  rfl

theorem takeParts_of_few (h : queue.length < (partsReferences parts).length) :
    takeParts lit parts queue = .error .unresolvedLabelReference := by
  induction parts generalizing queue with
  | nil => simp [partsReferences, referencedNames] at h
  | cons part parts ih =>
    obtain ⟨form, found⟩ := part
    rw [partsReferences_cons, List.length_append] at h
    rcases Nat.lt_or_ge queue.length (referencedNames found).length with hfew | henough
    · rw [takeParts, takeOperands_of_few hfew]
      rfl
    · obtain ⟨operands, hoperands⟩ := takeOperands_of_enough (lit := lit) henough
      rw [takeParts_cons hoperands, ih (by rw [List.length_drop]; omega)]
      rfl

theorem takeParts_of_enough (h : (partsReferences parts).length ≤ queue.length) :
    ∃ filled, takeParts lit parts queue = .ok (filled, queue.drop (partsReferences parts).length) := by
  induction parts generalizing queue with
  | nil => exact ⟨[], rfl⟩
  | cons part parts ih =>
    obtain ⟨form, found⟩ := part
    rw [partsReferences_cons, List.length_append] at h ⊢
    obtain ⟨operands, hoperands⟩ := takeOperands_of_enough (lit := lit) (found := found) (queue := queue) (by omega)
    obtain ⟨filled, hfilled⟩ := ih (queue := queue.drop (referencedNames found).length)
      (by rw [List.length_drop]; omega)
    rw [List.drop_drop] at hfilled
    exact ⟨_, by rw [takeParts_cons hoperands, hfilled]; rfl⟩

/-- A queue that is used up had one entry for each reference. -/
theorem length_eq_of_takeParts {filled : List (FilledPart α)} (h : takeParts lit parts queue = .ok (filled, [])) :
    (partsReferences parts).length = queue.length := by
  rcases Nat.lt_or_ge queue.length (partsReferences parts).length with hfew | henough
  · rw [takeParts_of_few hfew] at h
    cases h
  · obtain ⟨filled', hfilled⟩ := takeParts_of_enough (lit := lit) henough
    have hdrop : queue.drop (partsReferences parts).length = [] :=
      congrArg Prod.snd (Except.ok.inj (hfilled.symm.trans h))
    exact henough.antisymm (List.drop_eq_nil_iff.mp hdrop)

/-- A filled stretch keeps its form and declares the labels its placeholders declare. -/
theorem takeParts_cons_eq_ok {form : Option LineForm} {filled : List (FilledPart α)}
    (h : takeParts lit ((form, found) :: parts) queue = .ok (filled, left)) : ∃ operands more left',
      filled = ⟨form, declaredNames found, operands⟩ :: more ∧ takeParts lit parts left' = .ok (more, left) := by
  obtain ⟨⟨operands, left'⟩, hoperands, -⟩ := bind_eq_ok.mp h
  rw [takeParts_cons hoperands] at h
  obtain ⟨⟨more, left''⟩, hmore, heq⟩ := bind_eq_ok.mp h
  obtain ⟨rfl, rfl⟩ : _ = filled ∧ left'' = left := by simpa using heq
  exact ⟨operands, more, left', rfl, hmore⟩

/-! ## Lines -/

theorem fillLine_eq_ok {pieces : List (Piece α)} : fillLine lit parts queue = .ok pieces ↔
    ∃ filled, takeParts lit parts queue = .ok (filled, []) ∧ buildParts filled = .ok pieces := by
  rcases h : takeParts lit parts queue with e | ⟨filled, _ | ⟨offset, left⟩⟩ <;>
    simp [fillLine, h, bind, Except.bind]

/-- A line that is filled has one reference for each entry of the queue. -/
theorem length_eq_of_fillLine {pieces : List (Piece α)} (h : fillLine lit parts queue = .ok pieces) :
    (partsReferences parts).length = queue.length := by
  obtain ⟨filled, htake, -⟩ := fillLine_eq_ok.mp h
  exact length_eq_of_takeParts htake

theorem fillLine_of_few (h : queue.length < (partsReferences parts).length) :
    fillLine lit parts queue = .error .unresolvedLabelReference := by
  rw [fillLine, takeParts_of_few h]
  rfl

theorem fillLine_of_many (h : (partsReferences parts).length < queue.length) :
    fillLine lit parts queue = .error .unconsumedOffsets := by
  obtain ⟨filled, hfilled⟩ := takeParts_of_enough (lit := lit) h.le
  rw [fillLine, hfilled, List.drop_eq_getElem_cons h]
  rfl

variable {P : Params} {start : Nat} {line : CapturedLine} {offsets : List Nat}

/-- Everything the evaluation of a line can do when it answers. -/
theorem evalLine_eq_ok {out : BitString × LabelTable} : evalLine P start line offsets = .ok out ↔
    ∃ parts pieces, recogniseLine line = .ok parts ∧ fillLine id parts (offsets.map Int.ofNat) = .ok pieces ∧
      emitPieces P start pieces = .ok out := by
  simp only [evalLine, bind_eq_ok, exists_and_left]

theorem evalLine_of_recogniseLine_error {e : AsmError} (h : recogniseLine line = .error e) :
    evalLine P start line offsets = .error e := by
  rw [evalLine, h]
  rfl

theorem evalLine_of_fillLine_error {e : AsmError} (hline : recogniseLine line = .ok parts)
    (h : fillLine id parts (offsets.map Int.ofNat) = .error e) : evalLine P start line offsets = .error e := by
  rw [evalLine, hline, ok_bind, h]
  rfl

/-- Settles O40: recognising comes first, and then the queue must have an entry for each reference and no more. -/
theorem lineConsumesExactlyItsOffsets : Obligations.LineConsumesExactlyItsOffsets := by
  intro P start line offsets
  refine ⟨fun parts hline => ⟨fun hfew => ?_, fun hmany => ?_⟩, ?_, rfl⟩
  · exact evalLine_of_fillLine_error hline (fillLine_of_few (by simpa using hfew))
  · exact evalLine_of_fillLine_error hline (fillLine_of_many (by simpa using hmany))
  · rintro parts before after p rfl hparts ⟨found, hbefore⟩ hp
    exact evalLine_of_recogniseLine_error (recogniseParts_of_unmatched hparts hbefore hp)

end Sys2Proof.Machine
end

section
/-! SUPPORT. Where labels stand (spec/30_encoding.md R87), and which line of a program fails (R90). -/

namespace Sys2Proof.Machine

variable {α : Type} {P : Params} {start number : Nat} {bits : BitString} {table : LabelTable}

/-! ## Pieces -/

/-- A declaration stands at the offset reached so far. -/
theorem emitPieces_label_eq_ok {name : Label} {rest : List (Piece Int)}
    (h : emitPieces P start (.label name :: rest) = .ok (bits, table)) :
    ∃ table', emitPieces P start rest = .ok (bits, table') ∧ table = (name, start) :: table' := by
  obtain ⟨⟨bits', table'⟩, hrest, heq⟩ := bind_eq_ok.mp h
  obtain ⟨rfl, rfl⟩ : bits' = bits ∧ (name, start) :: table' = table := by simpa using heq
  exact ⟨table', hrest, rfl⟩

/-- A sub-encoding stands before the bits of the pieces after it. -/
theorem emitPieces_emit_eq_ok {line : SourceLine Int} {rest : List (Piece Int)}
    (h : emitPieces P start (.emit line :: rest) = .ok (bits, table)) :
    ∃ own more, encodeLine P line = .ok own ∧ emitPieces P (start + own.length) rest = .ok (more, table) ∧
      bits = own ++ more := by
  obtain ⟨own, hown, h⟩ := bind_eq_ok.mp h
  obtain ⟨⟨more, table'⟩, hrest, heq⟩ := bind_eq_ok.mp h
  obtain ⟨rfl, rfl⟩ : own ++ more = bits ∧ table' = table := by simpa using heq
  exact ⟨own, more, hown, hrest, rfl⟩

/-- Declarations emit nothing and all stand at one offset. -/
theorem emitPieces_labels_eq_ok {names : List Label} (h : emitPieces P start (names.map .label) = .ok (bits, table)) :
    bits = [] ∧ table = names.map fun name => (name, start) := by
  induction names generalizing table with
  | nil => exact Prod.ext_iff.mp (Except.ok.inj h).symm
  | cons name names ih =>
    obtain ⟨table', hrest, rfl⟩ := emitPieces_label_eq_ok h
    obtain ⟨hbits, rfl⟩ := ih hrest
    exact ⟨hbits, rfl⟩

/-- Declarations and then at most one sub-encoding: the labels stand where its bits start. -/
theorem table_eq_of_emitPieces {names : List Label} {own : List (Piece Int)} (hown : own = [] ∨ ∃ line, own = [.emit line])
    (h : emitPieces P start (names.map .label ++ own) = .ok (bits, table)) :
    table = names.map fun name => (name, start) := by
  obtain ⟨bits₁, table₁, bits₂, table₂, h₁, h₂, -, rfl⟩ := emitPieces_append h
  obtain ⟨rfl, rfl⟩ := emitPieces_labels_eq_ok h₁
  have hnil : ∀ {start bits table}, emitPieces P start [] = .ok (bits, table) → table = [] :=
    fun h => (congrArg Prod.snd (Except.ok.inj h)).symm
  obtain rfl : table₂ = [] := by
    rcases hown with rfl | ⟨line, rfl⟩
    · exact hnil h₂
    · obtain ⟨_, _, -, hrest, -⟩ := emitPieces_emit_eq_ok h₂
      exact hnil hrest
  exact List.append_nil _

/-! ## Lines -/

/-- Everything a stretch can be: its declarations, and a sub-encoding after them exactly if it has a form. -/
theorem pieces_eq_ok {part : FilledPart α} {pieces : List (Piece α)} (h : part.pieces = .ok pieces) :
    ∃ own, pieces = part.names.map .label ++ own ∧
      (part.form = none ∧ own = [] ∨ ∃ form line, part.form = some form ∧ own = [.emit line]) := by
  obtain ⟨form | form, names, operands⟩ := part
  · cases operands with
    | nil => exact ⟨[], (Except.ok.inj h).symm.trans (List.append_nil _).symm, .inl ⟨rfl, rfl⟩⟩
    | cons operand operands => cases h
  · obtain ⟨line, -, heq⟩ := bind_eq_ok.mp h
    exact ⟨_, (Except.ok.inj heq).symm, .inr ⟨form, line, rfl, rfl⟩⟩

variable {lit : Int → α} {parts : List (Option LineForm × List Captured)} {queue : List α} {pieces : List (Piece α)}

theorem fillLine_nil_eq_ok (h : fillLine lit [] queue = .ok pieces) : pieces = [] := by
  obtain ⟨filled, htake, hbuild⟩ := fillLine_eq_ok.mp h
  obtain rfl : [] = filled := congrArg Prod.fst (Except.ok.inj htake)
  exact (Except.ok.inj hbuild).symm

/-- The pieces of a line are those of its first stretch and then those of the stretches after it. -/
theorem fillLine_cons_eq_ok {form : Option LineForm} {found : List Captured}
    (h : fillLine lit ((form, found) :: parts) queue = .ok pieces) : ∃ own more left,
      fillLine lit parts left = .ok more ∧ pieces = (declaredNames found).map .label ++ own ++ more ∧
      (form = none ∧ own = [] ∨ ∃ f line, form = some f ∧ own = [.emit line]) := by
  obtain ⟨filled, htake, hbuild⟩ := fillLine_eq_ok.mp h
  obtain ⟨operands, rest, left, rfl, hrest⟩ := takeParts_cons_eq_ok htake
  obtain ⟨pieces₁, hfirst, hbuild⟩ := bind_eq_ok.mp hbuild
  obtain ⟨more, hmore, heq⟩ := bind_eq_ok.mp hbuild
  obtain ⟨own, rfl, hform⟩ := pieces_eq_ok hfirst
  exact ⟨own, more, left, fillLine_eq_ok.mpr ⟨rest, hrest, hmore⟩, (Except.ok.inj heq).symm, hform⟩

/-- A stretch with a form has a sub-encoding. -/
theorem fillLine_form_eq_ok {form : LineForm} {found : List Captured}
    (h : fillLine lit ((some form, found) :: parts) queue = .ok pieces) : ∃ line more left,
      fillLine lit parts left = .ok more ∧ pieces = (declaredNames found).map .label ++ [.emit line] ++ more := by
  obtain ⟨own, more, left, hmore, rfl, ⟨hnone, -⟩ | ⟨-, line, -, rfl⟩⟩ := fillLine_cons_eq_ok h
  · cases hnone
  · exact ⟨line, more, left, hmore, rfl⟩

/-- A last stretch without a form is its declarations. -/
theorem fillLine_declarations_eq_ok {found : List Captured} (h : fillLine lit [(none, found)] queue = .ok pieces) :
    pieces = (declaredNames found).map .label := by
  obtain ⟨own, more, left, hmore, rfl, ⟨-, rfl⟩ | ⟨form, -, hsome, -⟩⟩ := fillLine_cons_eq_ok h
  · rw [fillLine_nil_eq_ok hmore, List.append_nil, List.append_nil]
  · cases hsome

/-- Settles O42: a plain line is its declarations and one sub-encoding; the declarations of a stretch after it follow its last
bit. -/
theorem lineLabelsAreStartOrInterior : Obligations.LineLabelsAreStartOrInterior := by
  intro P start form own past found found' offsets bits table hown hpast
  refine ⟨fun h => ?_, fun h => ?_⟩ <;> obtain ⟨parts, pieces, hparts, hfill, hemit⟩ := evalLine_eq_ok.mp h
  · obtain rfl : [(some form, found)] = parts := by
      simpa [recogniseLine, recogniseParts, hown, bind, Except.bind] using hparts
    obtain ⟨line, more, left, hmore, rfl⟩ := fillLine_form_eq_ok hfill
    rw [fillLine_nil_eq_ok hmore, List.append_nil] at hemit
    exact table_eq_of_emitPieces (.inr ⟨line, rfl⟩) hemit
  · obtain rfl : [(some form, found), (none, found')] = parts := by
      simpa [recogniseLine, recogniseParts, hown, hpast, bind, Except.bind] using hparts
    obtain ⟨line, more, left, hmore, rfl⟩ := fillLine_form_eq_ok hfill
    obtain rfl := fillLine_declarations_eq_ok hmore
    obtain ⟨bits₁, table₁, bits₂, table₂, h₁, h₂, rfl, rfl⟩ := emitPieces_append hemit
    obtain ⟨rfl, rfl⟩ := emitPieces_labels_eq_ok h₂
    rw [table_eq_of_emitPieces (.inr ⟨line, rfl⟩) h₁, List.append_nil]

/-! ## Programs -/

variable {eval : Nat → α → Except AsmError (BitString × LabelTable)} {line : α} {rest : List α}

/-- Everything evaluating a line and those after it can do when it answers. -/
theorem of_evalLines_cons_eq_ok (h : evalLines eval start number (line :: rest) = .ok (bits, table)) :
    ∃ own ownTable more moreTable, eval start line = .ok (own, ownTable) ∧
      evalLines eval (start + own.length) (number + 1) rest = .ok (more, moreTable) ∧
      bits = own ++ more ∧ table = ownTable ++ moreTable := by
  unfold evalLines at h
  cases hline : eval start line with
  | error e => rw [hline] at h; cases h
  | ok out =>
    rw [hline] at h
    obtain ⟨⟨more, moreTable⟩, hrest, heq⟩ := bind_eq_ok.mp h
    obtain ⟨rfl, rfl⟩ : out.1 ++ more = bits ∧ out.2 ++ moreTable = table := by simpa using heq
    exact ⟨out.1, out.2, more, moreTable, rfl, hrest, rfl, rfl⟩

/-- Settles O41: the lines before, and the pieces before on the label's own line, are emitted before it. -/
theorem labelsResolveToImageOffsets : Obligations.LabelsResolveToImageOffsets := by
  intro P before after front back name bits table h
  obtain ⟨bits₁, table₁, _, _, hbefore, hrest, rfl, rfl⟩ := evalLines_append h
  obtain ⟨own, ownTable, more, moreTable, hline, -, rfl, rfl⟩ := of_evalLines_cons_eq_ok hrest
  obtain ⟨bits₂, table₂, bits₃, _, hfront, hlabel, rfl, rfl⟩ := emitPieces_append hline
  obtain ⟨table₃, -, rfl⟩ := emitPieces_label_eq_ok hlabel
  rw [Nat.zero_add] at hfront
  refine ⟨bits₁, bits₂, bits₃ ++ more, table₁, table₂, table₃ ++ moreTable, hbefore, hfront, ?_, ?_⟩
  · simp only [List.append_assoc]
  · simp only [List.append_assoc, List.cons_append, List.length_append, Nat.zero_add]

/-- Every line of a program that is evaluated is evaluated at some offset. -/
theorem eval_of_mem {lines : List α} (h : evalLines eval start number lines = .ok (bits, table)) (hline : line ∈ lines) :
    ∃ start' out, eval start' line = .ok out := by
  obtain ⟨before, after, rfl⟩ := List.append_of_mem hline
  obtain ⟨bits₁, table₁, _, _, -, h, -, -⟩ := evalLines_append h
  obtain ⟨own, ownTable, _, _, hown, -⟩ := of_evalLines_cons_eq_ok h
  exact ⟨_, _, hown⟩

/-- Settles O43: an evaluated line used up its offsets, one for each reference, so the table dropped no reference. -/
theorem resolvedReferencesReadDeclarations : Obligations.ResolvedReferencesReadDeclarations := by
  rintro P lines table ⟨bits, h⟩ line hline
  obtain ⟨start, out, hout⟩ := eval_of_mem h (List.mem_map_of_mem hline)
  obtain ⟨parts, pieces, hparts, hfill, -⟩ := evalLine_eq_ok.mp hout
  have hoffsets : offsetsFor table line = (partsReferences parts).filterMap fun name => table.lookup name := by
    rw [offsetsFor, hparts]
  have hfound : ∀ name ∈ partsReferences parts, (table.lookup name).isSome := by
    rw [← List.filterMap_length_eq_length, ← hoffsets, length_eq_of_fillLine hfill, List.length_map]
  refine ⟨parts, hparts, ?_, fun name hname => ?_⟩
  · rw [hoffsets, List.map_filterMap_some_eq_filter_map_isSome, List.filter_eq_self.mpr]
    simpa using hfound
  · obtain ⟨offset, hoffset⟩ := Option.isSome_iff_exists.mp (hfound name hname)
    obtain ⟨l₁, l₂, rfl, -⟩ := List.lookup_eq_some_iff.mp hoffset
    exact ⟨offset, by simp⟩

/-- A program fails with the first line that fails, at the offset the lines before it lead to. -/
theorem evalLines_eq_error {lines : List α} {failure : AsmFailure} :
    evalLines eval start number lines = .error failure ↔
      ∃ before after line bits table, lines = before ++ line :: after ∧ failure.line = number + before.length ∧
        evalLines eval start number before = .ok (bits, table) ∧ eval (start + bits.length) line = .error failure.error := by
  constructor
  · intro h
    induction lines generalizing start number with
    | nil => cases h
    | cons line lines ih =>
      unfold evalLines at h
      cases hline : eval start line with
      | error e =>
        rw [hline] at h
        obtain rfl : ⟨number, e⟩ = failure := Except.error.inj h
        exact ⟨[], lines, line, [], [], rfl, rfl, rfl, hline⟩
      | ok out =>
        rw [hline] at h
        rcases bind_eq_error.mp h with h | ⟨_, -, h⟩
        · obtain ⟨before, after, line', bits, table, rfl, hnumber, hbefore, herror⟩ := ih h
          refine ⟨line :: before, after, line', _, _, rfl, ?_, evalLines_cons_eq_ok hline hbefore, ?_⟩
          · rw [hnumber, List.length_cons]
            omega
          · rw [List.length_append, ← Nat.add_assoc, herror]
        · cases h
  · rintro ⟨before, after, line, bits, table, rfl, hnumber, hbefore, herror⟩
    induction before generalizing start number bits table with
    | nil =>
      obtain ⟨rfl, rfl⟩ : [] = bits ∧ [] = table := by simpa [evalLines] using hbefore
      obtain ⟨_, e⟩ := failure
      obtain rfl : _ = number := hnumber
      rw [List.nil_append, evalLines, show eval start line = .error e from herror]
    | cons line' before ih =>
      obtain ⟨own, ownTable, more, moreTable, hown, hmore, rfl, rfl⟩ := of_evalLines_cons_eq_ok hbefore
      rw [List.length_append, ← Nat.add_assoc] at herror
      rw [List.length_cons, Nat.add_comm before.length, ← Nat.add_assoc] at hnumber
      rw [List.cons_append, evalLines, hown]
      exact bind_eq_error.mpr (.inl (ih _ _ hnumber hmore herror))

/-- Settles O44: packing cannot fail, so the failure is the evaluation's. -/
theorem failureNamesTheOffendingLine : Obligations.FailureNamesTheOffendingLine := by
  intro P lines failure
  have hassemble : assemble P lines = .error failure ↔ evalProgram P lines = .error failure := by
    simp [assemble, bind_eq_error]
  rw [hassemble, evalProgram, evalLines_eq_error]
  simp [evalProgram, Prod.exists]

end Sys2Proof.Machine
end

section
/-! SUPPORT. Filling a line is natural in what the placeholders pass: an evaluation and an analysis that fill the same line
with values and with approximations of them build the same pieces. -/

namespace Sys2Proof.Machine

variable {α β : Type} {f : α → β}

/-- The same operand over another value. -/
def Operand.map (f : α → β) : Operand α → Operand β
  | .number v => .number (f v)
  | .text token => .text token

/-- The same piece over other operands. -/
def Piece.map (f : α → β) : Piece α → Piece β
  | .label name => .label name
  | .emit line => .emit (line.map f)

/-- The same filled stretch over other operands. -/
def FilledPart.map (f : α → β) (part : FilledPart α) : FilledPart β :=
  ⟨part.form, part.names, part.operands.map (Operand.map f)⟩

theorem takeOperands_map (f : α → β) (lit : Int → α) (found : List Captured) (queue : List α) :
    takeOperands (f ∘ lit) found (queue.map f) =
      takeOperands lit found queue >>= fun x => .ok (x.1.map (Operand.map f), x.2.map f) := by
  induction found generalizing queue with
  | nil => rfl
  | cons c found ih =>
    cases c with
    | literal v => simp only [takeOperands, ih]; cases takeOperands lit found queue <;> rfl
    | text token => simp only [takeOperands, ih]; cases takeOperands lit found queue <;> rfl
    | declares name => exact ih queue
    | matched => exact ih queue
    | reference name =>
      cases queue with
      | nil => rfl
      | cons offset queue =>
        rw [List.map_cons, takeOperands_reference, takeOperands_reference, ih]
        cases takeOperands lit found queue <;> rfl

theorem takeParts_map (f : α → β) (lit : Int → α) (parts : List (Option LineForm × List Captured)) (queue : List α) :
    takeParts (f ∘ lit) parts (queue.map f) =
      takeParts lit parts queue >>= fun x => .ok (x.1.map (FilledPart.map f), x.2.map f) := by
  induction parts generalizing queue with
  | nil => rfl
  | cons part parts ih =>
    simp only [takeParts, takeOperands_map]
    cases takeOperands lit part.2 queue with
    | error e => rfl
    | ok x =>
      simp only [ok_bind, ih]
      cases takeParts lit parts x.2 <;> rfl

/-- Operands are all numbers, or text is among them. -/
theorem numbers_or_text (operands : List (Operand α)) :
    (∃ vs : List α, operands = vs.map .number) ∨ ∃ token, .text token ∈ operands := by
  induction operands with
  | nil => exact .inl ⟨[], rfl⟩
  | cons operand operands ih =>
    cases operand with
    | text token => exact .inr ⟨token, by simp⟩
    | number v =>
      rcases ih with ⟨vs, rfl⟩ | ⟨token, h⟩
      · exact .inl ⟨v :: vs, rfl⟩
      · exact .inr ⟨token, List.mem_cons_of_mem _ h⟩

/-- No encoder takes text. -/
theorem fill_of_text {operands : List (Operand α)} {token : List Char} (h : .text token ∈ operands) (form : LineForm) :
    form.fill operands = none := by
  unfold LineForm.fill
  split <;> simp at h ⊢

/-- No encoder takes five operands or more, so the lengths up to four decide. -/
theorem fill_map (f : α → β) (form : LineForm) (operands : List (Operand α)) :
    form.fill (operands.map (Operand.map f)) = (form.fill operands).map (SourceLine.map f) := by
  rcases numbers_or_text operands with ⟨vs, rfl⟩ | ⟨token, h⟩
  · rcases vs with _ | ⟨a, _ | ⟨b, _ | ⟨c, _ | ⟨d, _ | ⟨e, vs⟩⟩⟩⟩⟩ <;> cases form <;> rfl
  · rw [fill_of_text h, fill_of_text (List.mem_map_of_mem (f := Operand.map f) h)]
    rfl

theorem build_map (f : α → β) (form : LineForm) (operands : List (Operand α)) :
    form.build (operands.map (Operand.map f)) = form.build operands >>= fun line => .ok (line.map f) := by
  rw [LineForm.build, LineForm.build, fill_map]
  cases form.fill operands <;> rfl

theorem pieces_map (f : α → β) (part : FilledPart α) :
    (part.map f).pieces = part.pieces >>= fun pieces => .ok (pieces.map (Piece.map f)) := by
  have hlabels : ∀ names : List Label, (names.map Piece.label).map (Piece.map f) = names.map .label :=
    fun names => List.map_map
  obtain ⟨form | form, names, operands⟩ := part
  · cases operands with
    | nil => exact congrArg Except.ok (hlabels names).symm
    | cons operand operands => rfl
  · simp only [FilledPart.map, FilledPart.pieces, build_map]
    cases form.build operands with
    | error e => rfl
    | ok line => simp only [ok_bind, List.map_append, hlabels]; rfl

theorem buildParts_map (f : α → β) (filled : List (FilledPart α)) :
    buildParts (filled.map (FilledPart.map f)) =
      buildParts filled >>= fun pieces => .ok (pieces.map (Piece.map f)) := by
  induction filled with
  | nil => rfl
  | cons part filled ih =>
    simp only [List.map_cons, buildParts, pieces_map, ih]
    cases part.pieces with
    | error e => rfl
    | ok pieces => cases buildParts filled <;> simp [bind, Except.bind]

theorem fillLine_map (f : α → β) (lit : Int → α) (parts : List (Option LineForm × List Captured)) (queue : List α) :
    fillLine (f ∘ lit) parts (queue.map f) =
      fillLine lit parts queue >>= fun pieces => .ok (pieces.map (Piece.map f)) := by
  simp only [fillLine, takeParts_map]
  rcases takeParts lit parts queue with e | ⟨filled, _ | ⟨offset, left⟩⟩
  · rfl
  · exact buildParts_map f filled
  · rfl

end Sys2Proof.Machine
end

section
/-! SUPPORT. Sizes of lines whose operands are known in part (spec/30_encoding.md R89, R91). -/

namespace Sys2Proof.Machine

variable {P : Params} {bits : BitString}

/-- What analysis knows of an operand: nothing, or its value. -/
def Approximates (known : Option Int) (v : Int) : Prop := known = none ∨ known = some v

/-- The known form never emits more than the any form. -/
theorem setFullRegisterFromKnown_length_le {n init const : Int} (h : setFullRegisterFromKnown P n init const = .ok bits) :
    bits.length ≤ P.width * (3 + P.r + P.m) := by
  rw [(setFullRegisterFromKnown_size h).2]
  refine Nat.mul_le_mul_right _ ?_
  rw [← expandFromAny_length P n.toNat const.toNat]
  exact (expandFromKnown_sublist ..).length_le

/-- A size in bits lies in a range `[min, max]` (R91). -/
def InRange (size : Nat) (range : Nat × Nat) : Prop := range.1 ≤ size ∧ size ≤ range.2

theorem inRange_self (size : Nat) : InRange size (size, size) := ⟨le_rfl, le_rfl⟩

theorem inRange_add {size size' : Nat} {range range' : Nat × Nat} (h : InRange size range) (h' : InRange size' range') :
    InRange (size + size') (range.1 + range'.1, range.2 + range'.2) :=
  ⟨Nat.add_le_add h.1 h'.1, Nat.add_le_add h.2 h'.2⟩

theorem inRange_any {n const : Int} {n? const? : Option Int} (h : setFullRegisterFromAny P n const = .ok bits)
    (hn : Approximates n? n) (hconst : Approximates const? const) :
    InRange bits.length (compositeSizeRange P n? .any const?) := by
  obtain ⟨hexact, hlen⟩ := setFullRegisterFromAny_size h
  by_cases hnone : n? = none ∨ const? = none
  · rw [compositeSizeRange_any_of_none hnone]
    exact ⟨Nat.zero_le _, hlen.le⟩
  · obtain ⟨hn?, hconst?⟩ := not_or.mp hnone
    rw [hn.resolve_left hn?, hconst.resolve_left hconst?, hexact]
    exact inRange_self _

theorem inRange_known {n init const : Int} {n? init? const? : Option Int}
    (h : setFullRegisterFromKnown P n init const = .ok bits) (hn : Approximates n? n) (hinit : Approximates init? init)
    (hconst : Approximates const? const) : InRange bits.length (compositeSizeRange P n? (.known init?) const?) := by
  by_cases hnone : n? = none ∨ init? = none ∨ const? = none
  · rw [compositeSizeRange_known_of_none hnone]
    exact ⟨Nat.zero_le _, setFullRegisterFromKnown_length_le h⟩
  · obtain ⟨hn?, hinit?, hconst?⟩ : ¬n? = none ∧ ¬init? = none ∧ ¬const? = none := by simpa using hnone
    rw [hn.resolve_left hn?, hinit.resolve_left hinit?, hconst.resolve_left hconst?, (setFullRegisterFromKnown_size h).1]
    exact inRange_self _

theorem differenceOperand_approximates {a b : Int} {a? b? : Option Int} (ha : Approximates a? a)
    (hb : Approximates b? b) : Approximates (differenceOperand P a? b?) (differenceConst P a b) := by
  rcases ha with ha | rfl
  · exact .inl (differenceOperand_of_none (.inl ha))
  rcases hb with hb | rfl
  · exact .inl (differenceOperand_of_none (.inr hb))
  exact .inr rfl

/-- A value with a mark that says whether analysis knows it: it does not know the offset of a label reference. -/
abbrev Marked := Int × Bool

/-- What analysis knows of a marked value. -/
def Marked.known (x : Marked) : Option Int := if x.2 then some x.1 else none

theorem Marked.known_approximates (x : Marked) : Approximates x.known x.1 := by
  obtain ⟨v, _ | _⟩ := x
  · exact .inl rfl
  · exact .inr rfl

/-- What a line emits lies in the range of what is known of it. -/
theorem inRange_lineSizeRange {line : SourceLine Marked} (h : encodeLine P (line.map Prod.fst) = .ok bits) :
    InRange bits.length (lineSizeRange P (line.map Marked.known)) := by
  cases line with
  | template t =>
    have hlen : bits.length = (t.map Marked.known).length P := by
      rw [encodeChecked_length h, Template.length_map, Template.length_map]
    exact ⟨hlen.ge, hlen.le⟩
  | setFromAny n const => exact inRange_any h n.known_approximates const.known_approximates
  | setFromKnown n init const =>
    exact inRange_known h n.known_approximates init.known_approximates const.known_approximates
  | setDifferenceFromAny n a b =>
    exact inRange_any h n.known_approximates
      (differenceOperand_approximates a.known_approximates b.known_approximates)
  | setDifferenceFromKnown n init a b =>
    exact inRange_known h n.known_approximates init.known_approximates
      (differenceOperand_approximates a.known_approximates b.known_approximates)

variable {start : Nat} {table : LabelTable}

/-- What pieces emit lies in the range of what is known of them. -/
theorem inRange_piecesSizeRange {pieces : List (Piece Marked)}
    (h : emitPieces P start (pieces.map (Piece.map Prod.fst)) = .ok (bits, table)) :
    InRange bits.length (piecesSizeRange P (pieces.map (Piece.map Marked.known))) := by
  induction pieces generalizing start bits table with
  | nil =>
    obtain rfl : [] = bits := congrArg Prod.fst (Except.ok.inj h)
    exact ⟨le_rfl, le_rfl⟩
  | cons piece pieces ih =>
    cases piece with
    | label name =>
      obtain ⟨table', hrest, -⟩ := emitPieces_label_eq_ok h
      exact ih hrest
    | emit line =>
      obtain ⟨own, more, hown, hmore, rfl⟩ := emitPieces_emit_eq_ok h
      rw [List.length_append]
      exact inRange_add (inRange_lineSizeRange hown) (ih hmore)

/-- Pieces with concrete operands have just the size they emit. -/
theorem piecesSizeRange_concrete {pieces : List (Piece Int)} (h : emitPieces P start pieces = .ok (bits, table)) :
    piecesSizeRange P (pieces.map (Piece.map some)) = (bits.length, bits.length) := by
  induction pieces generalizing start bits table with
  | nil =>
    obtain rfl : [] = bits := congrArg Prod.fst (Except.ok.inj h)
    rfl
  | cons piece pieces ih =>
    cases piece with
    | label name =>
      obtain ⟨table', hrest, -⟩ := emitPieces_label_eq_ok h
      exact ih hrest
    | emit line =>
      obtain ⟨own, more, hown, hmore, rfl⟩ := emitPieces_emit_eq_ok h
      rw [List.map_cons, Piece.map, piecesSizeRange, concreteLineSizeIsExact P line own hown, ih hmore,
        List.length_append]

/-! ## Analysis against evaluation -/

variable {parts : List (Option LineForm × List Captured)}

/-- The labels in a line's table are those its placeholders declare, in order. -/
theorem table_names_of_fillLine {lit : Int → Int} {queue : List Int} {pieces : List (Piece Int)}
    (hfill : fillLine lit parts queue = .ok pieces) (hemit : emitPieces P start pieces = .ok (bits, table)) :
    table.map Prod.fst = declaredNames (parts.flatMap Prod.snd) := by
  induction parts generalizing start queue pieces bits table with
  | nil =>
    obtain rfl := fillLine_nil_eq_ok hfill
    obtain rfl : [] = table := congrArg Prod.snd (Except.ok.inj hemit)
    rfl
  | cons part parts ih =>
    obtain ⟨own, more, left, hmore, rfl, hown⟩ := fillLine_cons_eq_ok hfill
    obtain ⟨bits₁, table₁, bits₂, table₂, h₁, h₂, rfl, rfl⟩ := emitPieces_append hemit
    have htable := table_eq_of_emitPieces (hown.imp And.right fun ⟨_, line, _, hline⟩ => ⟨line, hline⟩) h₁
    rw [List.flatMap_cons, declaredNames_append, List.map_append, ih hmore h₂, htable, List.map_map]
    exact congrArg (· ++ _) (List.map_id _)

/-- The analysis of a line whose references pass nothing known. -/
theorem analyseLine_of_fillLine {line : CapturedLine} {pieces : List (Piece (Option Int))}
    (hline : recogniseLine line = .ok parts)
    (hfill : fillLine some parts ((partsReferences parts).map fun _ => none) = .ok pieces) :
    analyseLine P line = .ok ⟨(piecesSizeRange P pieces).1, (piecesSizeRange P pieces).2,
      declaredNames (parts.flatMap Prod.snd), partsReferences parts⟩ := by
  simp only [analyseLine, hline, ok_bind, hfill]

/-- The resolved offsets as evaluation passes them, marked unknown to analysis. -/
def markedOffsets (offsets : List Nat) : List Marked := offsets.map fun offset => (Int.ofNat offset, false)

theorem markedOffsets_values (offsets : List Nat) : (markedOffsets offsets).map Prod.fst = offsets.map Int.ofNat :=
  List.map_map

theorem markedOffsets_known (offsets : List Nat) :
    (markedOffsets offsets).map Marked.known = List.replicate offsets.length none := by
  rw [markedOffsets, List.map_map, ← List.map_const']
  rfl

/-- A line that evaluation fills, analysis fills: with the same marked values, of which evaluation passes the value and analysis
what it knows. -/
theorem fillLine_marked {pieces : List (Piece Int)} {offsets : List Nat}
    (h : fillLine id parts (offsets.map Int.ofNat) = .ok pieces) : ∃ marked : List (Piece Marked),
      pieces = marked.map (Piece.map Prod.fst) ∧
      fillLine some parts (List.replicate offsets.length none) = .ok (marked.map (Piece.map Marked.known)) := by
  have hvalues := fillLine_map Prod.fst (fun v => ((v, true) : Marked)) parts (markedOffsets offsets)
  have hknown := fillLine_map Marked.known (fun v => (v, true)) parts (markedOffsets offsets)
  rw [markedOffsets_values] at hvalues
  rw [markedOffsets_known] at hknown
  obtain ⟨marked, hmarked, heq⟩ := bind_eq_ok.mp (hvalues.symm.trans h)
  rw [hmarked, ok_bind] at hknown
  exact ⟨marked, (Except.ok.inj heq).symm, hknown⟩

/-- Without offsets there is nothing analysis does not know. -/
theorem fillLine_concrete {pieces : List (Piece Int)} (h : fillLine id parts [] = .ok pieces) :
    fillLine some parts [] = .ok (pieces.map (Piece.map some)) := by
  have hmap := fillLine_map some id parts []
  rwa [h, ok_bind] at hmap

/-- Settles O45: analysis fills the line as evaluation does, and every piece lies in the range of what is known of it. -/
theorem analysisBoundsEvaluation : Obligations.AnalysisBoundsEvaluation := by
  intro P start line offsets bits table h
  obtain ⟨parts, pieces, hline, hfill, hemit⟩ := evalLine_eq_ok.mp h
  obtain ⟨marked, rfl, hknown⟩ := fillLine_marked hfill
  have hcount := length_eq_of_fillLine hfill
  rw [List.length_map] at hcount
  have hanalysis := hknown
  rw [← hcount, ← List.map_const'] at hanalysis
  obtain ⟨hmin, hmax⟩ := inRange_piecesSizeRange hemit
  refine ⟨_, analyseLine_of_fillLine hline hanalysis, hmin, hmax, (table_names_of_fillLine hfill hemit).symm, hcount,
    fun hnone => ?_⟩
  have hzero : (partsReferences parts).length = 0 := List.length_eq_zero_iff.mpr hnone
  obtain rfl : offsets = [] := List.length_eq_zero_iff.mp (hcount ▸ hzero)
  have hpieces := Except.ok.inj (hknown.symm.trans (fillLine_concrete hfill))
  rw [hpieces, piecesSizeRange_concrete hemit]
  exact ⟨rfl, rfl⟩

end Sys2Proof.Machine
end
